-- ==== Sys2Proof/Word.lean ====
section
/-! DEFINITION. Word.lean: the widths of spec/00_scope.md R4 and R5 as types: characters, text, the
encoded word and its fields. -/

namespace Sys2Proof

/-- One character: an 8-bit code (R5 CHAR_BITS, R6). -/
abbrev Byte := BitVec 8

/-- A string: a finite sequence of characters (R6). -/
abbrev Text := List Byte

/-- A token: what the Tokenizer cuts a line into (R80). -/
abbrev Token := Text

/-- One input line, `line[0]` first, of any finite length (R5 LINE_MAX, R16). -/
abbrev Line := Text

/-- The encoded word (R4 WORD_BITS). -/
abbrev Word := BitVec 16

/-- An opcode (R4 OPCODE_BITS). -/
abbrev Opcode := BitVec 4

/-- A register code (R4 REG_BITS). -/
abbrev RegCode := BitVec 3

end Sys2Proof
end

