-- ==== Sys2Proof/Config.lean ====
section
/-! DEFINITION. Config.lean: the parameters of spec/00_scope.md R4 and R5, and the types of the two constant
tables' entries (spec/10_state.md R12). The tables' contents stand in Decode.lean. -/

namespace Sys2Proof

/-- HEX_DIGITS (R4). -/
def Config.hexDigits : Nat := 4

/-- WORD_BITS (R4). -/
def Config.wordBits : Nat := 16

/-- NREGS (R4). -/
def Config.nRegs : Nat := 8

/-- N_MNEMONICS (R4). -/
def Config.nMnemonics : Nat := 10

/-- MAX_OPERANDS (R4). -/
def Config.maxOperands : Nat := 2

/-- IMAGE_BASE (R5, R35, D21): OPEN, the platform's address of word 0. The block never sees it and no definition
reads it. Log 6. -/
opaque Config.imageBase : Nat

/-- ENC_LATENCY (R181, D2): OPEN, a parameter of an implementation that no result depends on. No definition reads
it. Log 6. -/
opaque Config.encLatency : Nat

/-- The format class of an instruction (R12, R50). -/
inductive Format where
  | rType
  | iType
deriving DecidableEq, Repr

/-- What an `ISET` entry holds beside its opcode, for exactly the combinations of format and operand count that the
table contains (R11, R12): an R-type entry has a stored 3-bit sub-opcode and two operands or none; an I-type entry
has no sub-opcode (its wildcard is unobservable, R12) and a register with or without an immediate. The combinations
of U5 have no value of this type. Logs 13 and 14. -/
inductive EntryForm where
  /-- Two registers, rs and rt. -/
  | rTwo (subop : BitVec 3)
  /-- No operand. -/
  | rNone (subop : BitVec 3)
  /-- A register and an immediate. -/
  | iTwo
  /-- A register only. -/
  | iOne
deriving DecidableEq, Repr

/-- The source's InstructionSpec: one entry of `ISET` (R12). -/
structure InstructionSpec where
  opcode : Opcode
  form : EntryForm
deriving DecidableEq, Repr

/-- The `format` field of an entry (R12). -/
def InstructionSpec.format (e : InstructionSpec) : Format :=
  match e.form with
  | .rTwo _ => .rType
  | .rNone _ => .rType
  | .iTwo => .iType
  | .iOne => .iType

/-- The `operandCount` field of an entry (R12). -/
def InstructionSpec.operandCount (e : InstructionSpec) : Nat :=
  match e.form with
  | .rTwo _ => 2
  | .rNone _ => 0
  | .iTwo => 2
  | .iOne => 1

/-- The stored `subop` field of an entry; none for the I-type wildcard (R12, D15). -/
def InstructionSpec.subop (e : InstructionSpec) : Option (BitVec 3) :=
  match e.form with
  | .rTwo b => some b
  | .rNone b => some b
  | .iTwo => none
  | .iOne => none

end Sys2Proof
end

