-- ==== Sys2Proof/Syntax.lean ====
section
/-! DEFINITION. Syntax.lean: the ten instructions of spec/opcode_table.json. -/

namespace Sys2Proof

/-- An instruction: a mnemonic of `ISET` with its operand tokens in source order, as the Tokenizer hands them over
(the ParsedInstruction of R15, with its mnemonic resolved). The operands stay text because checking their number
and resolving them IS the operation of the rules R120 to R124 and R130 to R134. Log 7. -/
inductive Instr where
  /-- `add <reg>, <reg>` (R120) -/
  | add (ops : List Token)
  /-- `mult <reg>, <reg>` (R121) -/
  | mult (ops : List Token)
  /-- `lw <reg>, <reg>` (R122) -/
  | lw (ops : List Token)
  /-- `sw <reg>, <reg>` (R123) -/
  | sw (ops : List Token)
  /-- `halt` (R124) -/
  | halt (ops : List Token)
  /-- `addi <reg>, <imm>` (R130) -/
  | addi (ops : List Token)
  /-- `addui <reg>, <imm>` (R131) -/
  | addui (ops : List Token)
  /-- `bz <reg>, <imm>` (R132) -/
  | bz (ops : List Token)
  /-- `bp <reg>, <imm>` (R133) -/
  | bp (ops : List Token)
  /-- `put <reg>` (R134) -/
  | put (ops : List Token)
deriving DecidableEq, Repr

/-- The operand tokens of an instruction. -/
def Instr.ops : Instr → List Token
  | .add ops => ops
  | .mult ops => ops
  | .lw ops => ops
  | .sw ops => ops
  | .halt ops => ops
  | .addi ops => ops
  | .addui ops => ops
  | .bz ops => ops
  | .bp ops => ops
  | .put ops => ops

end Sys2Proof
end

