-- ==== Sys2Proof/Decode.lean ====
section
/-! DEFINITION. Decode.lean: reading. First the reading of a line of text (characters, the Tokenizer, the two
constant tables, the literal grammar; spec/40_pipeline.md R80 to R91), then the canonical text of an instruction and
the reading of an encoded word (spec/30_encoding.md R57, R58, R66), then the encoder. -/

namespace Sys2Proof

/-! ## Characters -/

/-- The character codes of a text (ASCII: R6, GK1). -/
def text (s : String) : Text :=
  s.toList.map fun c => BitVec.ofNat 8 c.toNat

/-- The separator set SEP: space, HT, LF, VT, FF, CR, comma (R5, R80). -/
def isSep (c : Byte) : Bool :=
  c == 0x20#8 || c == 0x09#8 || c == 0x0A#8 || c == 0x0B#8 || c == 0x0C#8 || c == 0x0D#8 || c == 0x2C#8

/-- A decimal digit `0` to `9` (R64). -/
def isDigit (c : Byte) : Bool :=
  0x30 ≤ c.toNat && c.toNat ≤ 0x39

/-- The value of a decimal digit, `c - '0'` (R89). -/
def digitValue (c : Byte) : Nat :=
  c.toNat - 0x30

/-- The character of a decimal digit. -/
def digitChar (d : Nat) : Byte :=
  BitVec.ofNat 8 (0x30 + d)

/-! ## Tokenizer -/

/-- The token collected so far, unless it is empty: "drops empty fragments" (R80). -/
def flushToken (cur : Token) : List Token :=
  if cur = [] then [] else [cur]

/-- The loop of R80, `cur` being the token collected so far. -/
def tokenizeFrom : Token → Line → List Token
  | cur, [] => flushToken cur
  | cur, c :: cs => if isSep c then flushToken cur ++ tokenizeFrom [] cs else tokenizeFrom (cur ++ [c]) cs

/-- The Tokenizer: the maximal runs of characters that are no separators, left to right (R80). -/
def tokenize (line : Line) : List Token :=
  tokenizeFrom [] line

/-! ## The constant tables -/

/-- The value a table keyed by strings holds at a key; none when the key is absent. Keys compare by exact
equality (R85, R88). -/
def tableLookup {α : Type} : List (Token × α) → Token → Option α
  | [], _ => none
  | (k, v) :: rest, t => if k = t then some v else tableLookup rest t

def keyAdd : Token := text "add"
def keyMult : Token := text "mult"
def keyLw : Token := text "lw"
def keySw : Token := text "sw"
def keyHalt : Token := text "halt"
def keyAddi : Token := text "addi"
def keyAddui : Token := text "addui"
def keyBz : Token := text "bz"
def keyBp : Token := text "bp"
def keyPut : Token := text "put"

/-- The InstructionSetTable `ISET`: exactly ten entries (R11, R12). -/
def iset : List (Token × InstructionSpec) :=
  [(keyAdd, ⟨0b0000#4, .rTwo 0b000#3⟩),
   (keyMult, ⟨0b0010#4, .rTwo 0b000#3⟩),
   (keyLw, ⟨0b0110#4, .rTwo 0b000#3⟩),
   (keySw, ⟨0b0110#4, .rTwo 0b001#3⟩),
   (keyHalt, ⟨0b0111#4, .rNone 0b000#3⟩),
   (keyAddi, ⟨0b0001#4, .iTwo⟩),
   (keyAddui, ⟨0b0001#4, .iTwo⟩),
   (keyBz, ⟨0b1000#4, .iTwo⟩),
   (keyBp, ⟨0b1010#4, .iTwo⟩),
   (keyPut, ⟨0b1111#4, .iOne⟩)]

/-- The content-addressed read `ISET[m]` (R7, R84); none is *absent*. -/
def isetLookup (m : Token) : Option InstructionSpec :=
  tableLookup iset m

/-- The RegisterTable `RTAB`: exactly eight entries (R13). -/
def rtab : List (Token × RegCode) :=
  [(text "$r0", 0b000#3),
   (text "$r1", 0b001#3),
   (text "$r2", 0b010#3),
   (text "$r3", 0b011#3),
   (text "$r4", 0b100#3),
   (text "$r5", 0b101#3),
   (text "$r6", 0b110#3),
   (text "$r7", 0b111#3)]

/-- The content-addressed read `RTAB[t]` (R7, R87); none is *absent*. -/
def rtabLookup (t : Token) : Option RegCode :=
  tableLookup rtab t

/-! ## Reading a line -/

/-- The ten mnemonics as an enumerated closed set (R85). -/
def mnemonicTable : List (Token × (List Token → Instr)) :=
  [(keyAdd, .add), (keyMult, .mult), (keyLw, .lw), (keySw, .sw), (keyHalt, .halt),
   (keyAddi, .addi), (keyAddui, .addui), (keyBz, .bz), (keyBp, .bp), (keyPut, .put)]

/-- The first token, or the empty string for a line with no token (R81, R83). -/
def mnemonicOf (toks : List Token) : Token :=
  toks.headD []

/-- Tokenizer and mnemonic lookup: the instruction of a line, or the mnemonic that is in no table
(R81 to R84). -/
def parseLine (line : Line) : Except Token Instr :=
  match tableLookup mnemonicTable (mnemonicOf (tokenize line)) with
  | some build => .ok (build (tokenize line).tail)
  | none => .error (mnemonicOf (tokenize line))

/-! ## Immediate literals -/

/-- The sign of a literal, whether it is a minus sign, and the rest of the token (R89). -/
def literalSign : Token → Bool × Token
  | [] => (false, [])
  | c :: cs => if c = 0x2B#8 then (false, cs) else if c = 0x2D#8 then (true, cs) else (false, c :: cs)

/-- The decimal accumulation of R89 over unbounded naturals. -/
def decimalValue (ds : Text) : Nat :=
  ds.foldl (fun v c => 10 * v + digitValue c) 0

/-- The base-10 integer a token spells, if it matches `[ "+" | "-" ] digit+` (R64, R89). -/
def readInteger (t : Token) : Option Int :=
  if (literalSign t).2 = [] || !(literalSign t).2.all isDigit then none
  else if (literalSign t).1 then some (-(decimalValue (literalSign t).2 : Int))
  else some (decimalValue (literalSign t).2 : Int)

/-- IMM_MAX (R5, R90). -/
def immMax : Int := 255

/-- The 8-bit immediate of a token: `bin_8` of its value, if it is a literal in 0 to 255 (R55, R90). -/
def immediateOf (t : Token) : Option (BitVec 8) :=
  match readInteger t with
  | some v => if 0 ≤ v ∧ v ≤ immMax then some (BitVec.ofNat 8 v.toNat) else none
  | none => none

/-! ## Canonical text of an instruction (R66) -/

/-- The register token of a code: `$r` and the digit of its index (R13, R66). -/
def regToken (c : RegCode) : Token :=
  [0x24#8, 0x72#8, digitChar c.toNat]

/-- The decimal numeral of a natural below 1000, without leading zeros (R66). -/
def numeralOf (n : Nat) : Token :=
  if n < 10 then [digitChar n]
  else if n < 100 then [digitChar (n / 10), digitChar (n % 10)]
  else [digitChar (n / 100), digitChar (n / 10 % 10), digitChar (n % 10)]

/-- The numeral token of an 8-bit immediate (R66). -/
def immToken (v : BitVec 8) : Token :=
  numeralOf v.toNat

/-- The mnemonic of an instruction (R11). -/
def Instr.key : Instr → Token
  | .add _ => keyAdd
  | .mult _ => keyMult
  | .lw _ => keyLw
  | .sw _ => keySw
  | .halt _ => keyHalt
  | .addi _ => keyAddi
  | .addui _ => keyAddui
  | .bz _ => keyBz
  | .bp _ => keyBp
  | .put _ => keyPut

/-- Operand tokens written one after another, `, ` between two (R62). -/
def operandText : List Token → Text
  | [] => []
  | [t] => t
  | t :: rest => t ++ [0x2C#8, 0x20#8] ++ operandText rest

/-- The line of an instruction: its mnemonic, and its operands after a space (R62, R66). -/
def lineOf (i : Instr) : Line :=
  if i.ops = [] then i.key else i.key ++ [0x20#8] ++ operandText i.ops

/-! ## Reading a word (R57, R58, R66) -/

/-- The rs field, `word[11:9]` (R51, R52). -/
def rsField (w : Word) : RegCode := w.extractLsb' 9 3

/-- The rt field, `word[8:6]` (R51). -/
def rtField (w : Word) : RegCode := w.extractLsb' 6 3

/-- The imm field, `word[7:0]` (R52). -/
def immField (w : Word) : BitVec 8 := w.extractLsb' 0 8

/-- The opcode field, `word[15:12]` (R51, R52). -/
def opcodeField (w : Word) : Opcode := w.extractLsb' 12 4

/-- One row of R57: a word `w` is an encoding of the row iff `w AND mask = pattern`. -/
structure WordRow where
  pattern : Word
  mask : Word
  build : Word → Instr

/-- The canonical register operands of an R-type word (R66). -/
def regOperands (w : Word) : List Token :=
  [regToken (rsField w), regToken (rtField w)]

/-- The canonical operands of a two-operand I-type word (R66). -/
def immOperands (w : Word) : List Token :=
  [regToken (rsField w), immToken (immField w)]

/-- The table of R57. -/
def wordRows : List WordRow :=
  [⟨0x0000#16, 0xF03F#16, fun w => .add (regOperands w)⟩,
   ⟨0x2000#16, 0xF03F#16, fun w => .mult (regOperands w)⟩,
   ⟨0x6000#16, 0xF03F#16, fun w => .lw (regOperands w)⟩,
   ⟨0x6001#16, 0xF03F#16, fun w => .sw (regOperands w)⟩,
   ⟨0x7000#16, 0xFFFF#16, fun _ => .halt []⟩,
   ⟨0x1000#16, 0xF100#16, fun w => .addi (immOperands w)⟩,
   ⟨0x1100#16, 0xF100#16, fun w => .addui (immOperands w)⟩,
   ⟨0x8000#16, 0xF100#16, fun w => .bz (immOperands w)⟩,
   ⟨0xA000#16, 0xF100#16, fun w => .bp (immOperands w)⟩,
   ⟨0xF000#16, 0xF1FF#16, fun w => .put [regToken (rsField w)]⟩]

/-- Whether a word is an encoding of a row (R57). -/
def WordRow.covers (r : WordRow) (w : Word) : Bool :=
  (w &&& r.mask) == r.pattern

/-- Why a word is no encoding (R58, U12). Both are safe: the block never emits such a word. -/
inductive WordRefusal where
  /-- Raised by `decode`: no mnemonic maps to the opcode of the word (R56, R58). Safe. -/
  | unassignedOpcode (op : Opcode)
  /-- Raised by `decode`: the opcode is assigned, but a constant field of its rows does not hold its value
  (R58). Safe. -/
  | constantFieldDiffers
deriving DecidableEq, Repr

/-- The opcodes that some mnemonic maps to (R12, R56). -/
def assignedOpcodes : List Opcode :=
  iset.map fun e => e.2.opcode

/-- Reading a word back: the instruction of its row with canonical operands, or a refusal by name
(R57, R58, R66, U12). The hardware has no decode direction; log 11. -/
def decode (w : Word) : Except WordRefusal Instr :=
  match wordRows.find? fun r => r.covers w with
  | some r => .ok (r.build w)
  | none =>
    if opcodeField w ∈ assignedOpcodes then .error .constantFieldDiffers
    else .error (.unassignedOpcode (opcodeField w))

/-- The instruction that `decode` reads from the `nbits` low bits of a table word `w`; a word with bits above the
sixteen of an instruction (R50) is none. -/
def decodeTableWord (nbits w : Nat) : Option Instr :=
  if w % 2 ^ nbits < 2 ^ 16 then
    match decode (BitVec.ofNat 16 (w % 2 ^ nbits)) with
    | .ok i => some i
    | .error _ => none
  else none

/-! ## The encoder (R57) -/

/-- A row's pattern with its register fields filled in. -/
def placeRegs (pattern : Word) (rs rt : RegCode) : Word :=
  pattern ||| (rs.zeroExtend 16 <<< 9) ||| (rt.zeroExtend 16 <<< 6)

/-- A row's pattern with its rs and imm fields filled in. -/
def placeImm (pattern : Word) (rs : RegCode) (imm : BitVec 8) : Word :=
  pattern ||| (rs.zeroExtend 16 <<< 9) ||| imm.zeroExtend 16

/-- The word of a two-register operand list over a row's pattern; none when it is ill formed. -/
def encodeRegs (pattern : Word) : List Token → Option Word
  | [a, b] =>
    match rtabLookup a, rtabLookup b with
    | some rs, some rt => some (placeRegs pattern rs rt)
    | _, _ => none
  | _ => none

/-- The word of a register and literal operand list over a row's pattern; none when it is ill formed. -/
def encodeImm (pattern : Word) : List Token → Option Word
  | [a, b] =>
    match rtabLookup a, immediateOf b with
    | some rs, some imm => some (placeImm pattern rs imm)
    | _, _ => none
  | _ => none

/-- The word of a one-register operand list over a row's pattern; none when it is ill formed. -/
def encodeReg (pattern : Word) : List Token → Option Word
  | [a] => (rtabLookup a).map fun rs => placeImm pattern rs 0x00#8
  | _ => none

/-- The word of an empty operand list; none when an operand follows. -/
def encodeNone (pattern : Word) : List Token → Option Word
  | [] => some pattern
  | _ :: _ => none

/-- The word of a well-formed instruction, from the match column of R57; none for an ill-formed one. -/
def encode : Instr → Option Word
  | .add ops => encodeRegs 0x0000#16 ops
  | .mult ops => encodeRegs 0x2000#16 ops
  | .lw ops => encodeRegs 0x6000#16 ops
  | .sw ops => encodeRegs 0x6001#16 ops
  | .halt ops => encodeNone 0x7000#16 ops
  | .addi ops => encodeImm 0x1000#16 ops
  | .addui ops => encodeImm 0x1100#16 ops
  | .bz ops => encodeImm 0x8000#16 ops
  | .bp ops => encodeImm 0xA000#16 ops
  | .put ops => encodeReg 0xF000#16 ops

end Sys2Proof
end

