-- ==== Sys2Proof/Machine/Flags.lean ====
section
/-! DEFINITION. Machine/Flags.lean: the one flag the spec computes, the unsigned bit of an I-type word. The block has no
status flags (spec/10_state.md R19). -/

namespace Sys2Proof.Machine

/-- The unsigned flag, "from mnemonic identity": 1 for `addui`, 0 for every other mnemonic (R92). -/
def unsignedFlag (m : Token) : BitVec 1 :=
  if m = keyAddui then 1#1 else 0#1

end Sys2Proof.Machine
end

