-- ==== Sys2Proof/Machine/State.lean ====
section
/-! DEFINITION. Machine/State.lean: the results of an encode operation (spec/00_scope.md R8), the ports of the block
(spec/10_state.md R16), the host wrapper around it (spec/20_memory.md R40 to R46), and the state after reset. The
block itself has no mutable state (R10, R17 to R21); log 1. -/

namespace Sys2Proof.Machine

/-- The four error kinds (R8, R140). -/
inductive ErrorKind where
  /-- The mnemonic is no key of `ISET` (R141). -/
  | unknownInstruction
  /-- An operand in a register position is no key of `RTAB` (R142). -/
  | unknownRegister
  /-- Operand 2 is no literal, or its value is outside 0 to 255 (R143). -/
  | malformedImmediate
  /-- The number of operands differs from the mnemonic's (R144). -/
  | operandCount
deriving DecidableEq, Repr

/-- The field an error names (R8). -/
inductive ErrorField where
  | mnemonic
  | operand1
  | operand2
  | operandList
deriving DecidableEq, Repr

/-- What an `Err` result carries: kind, field and offending token (R8, R146, R151). It has no word (R150). -/
structure EncodeError where
  kind : ErrorKind
  field : ErrorField
  token : Token
deriving DecidableEq, Repr

/-- The result of one encode operation (R8). -/
inductive Result where
  /-- The encoded word, its 16-character binary string and its 4-character hex rendering. -/
  | ok (word : Word) (bin : Text) (hex : Text)
  /-- An error in place of a word. -/
  | err (e : EncodeError)
deriving DecidableEq, Repr

/-- What the host wrapper is doing (R40 to R46); logs 8 and 9. -/
inductive Phase where
  /-- No run has been started. -/
  | idle
  /-- The wrapper reads its next input line. -/
  | reading
  /-- The wrapper has handed a line to the block and waits for the response. -/
  | waiting
  /-- The input is used up: the outcome is `Image` (R46). -/
  | finished
  /-- The run was aborted: the outcome is `Failed(n, err)` (R44). -/
  | failed (n : Nat) (e : EncodeError)
deriving DecidableEq, Repr

/-- How a consumer's sampling of an output port can fail. No step raises one. -/
inductive Fault where
  /-- Raised by the port reads of Machine/Ops.lean while no response is being delivered: before the first one after
  reset the outputs are unspecified and must not be sampled (R22, D17), and after its delivery a response is not
  readable any more (R15). Safe: no value is exposed. -/
  | noResponse
  /-- Raised by the port reads of Machine/Ops.lean for `word` and `hex` when `ok = 0` and for `err_field` when
  `ok = 1`: they hold no defined value (R16, R150, D14). Safe: no value is exposed. -/
  | portNotMeaningful
deriving DecidableEq, Repr

/-- Why a step gives an instruction no meaning. -/
inductive Refusal where
  /-- Raised by an arm of `exec` for an instruction that has no meaning yet; no arm does. Safe. -/
  | notModelled (mnemonic : String)
deriving DecidableEq, Repr

/-- What stands at the block's ports and in the host wrapper. The two tables are constants, not fields (R10). -/
structure State where
  /-- The lines handed to the block and not yet answered, oldest first (ports `line`, `line_len`; R16). -/
  requests : List Line
  /-- The response being delivered (ports `ok`, `word`, `hex`, `err_code`, `err_field`; R16): it stands from the step
  that answers the request to the next step, and is not readable after that (R15, log 1); none before the first
  response after reset (R22). -/
  response : Option Result
  /-- Host wrapper: the input lines not yet read (R46). -/
  input : List Line
  /-- Host wrapper: the 0-based index, among all input lines, of the line in hand (R44). -/
  lineIndex : Nat
  /-- Host wrapper: the output lines so far, the header first (R42, R43, R46). -/
  out : List Text
  /-- Host wrapper: its phase, with the run-level failed mark (R44). -/
  phase : Phase
deriving DecidableEq, Repr

/-- The machine right after reset: no request, no response yet (R22), and no run of the host wrapper started
(logs 2, 3 and 9). -/
def State.reset : State :=
  { requests := [], response := none, input := [], lineIndex := 0, out := [], phase := .idle }

end Sys2Proof.Machine
end

