-- ==== Sys2Proof/Machine/Operands.lean ====
section
/-! DEFINITION. Machine/Operands.lean: the operand forms of the ten instructions with the errors each raises, in the
order of spec/60_exceptions.md R147: the operand count, then operand 1, then operand 2. -/

namespace Sys2Proof.Machine

/-- `OperandCountError(OPERAND_LIST, "")` (R86, R144). -/
def countError : EncodeError := ⟨.operandCount, .operandList, []⟩

/-- `UnknownInstructionError(MNEMONIC, m)` (R83, R84, R141). -/
def unknownMnemonic (m : Token) : EncodeError := ⟨.unknownInstruction, .mnemonic, m⟩

/-- `reg(t, field)`: the code of a register token (R87, R142). -/
def regOperand (t : Token) (field : ErrorField) : Except EncodeError RegCode :=
  match rtabLookup t with
  | some c => .ok c
  | none => .error ⟨.unknownRegister, field, t⟩

/-- `parseImm(t)`: the immediate of operand 2 (R89, R90, R143). -/
def immOperand (t : Token) : Except EncodeError (BitVec 8) :=
  match immediateOf t with
  | some v => .ok v
  | none => .error ⟨.malformedImmediate, .operand2, t⟩

/-- Two register operands: rs, then rt (R94). -/
def twoRegisters : List Token → Except EncodeError (RegCode × RegCode)
  | [a, b] =>
    match regOperand a .operand1 with
    | .error e => .error e
    | .ok rs =>
      match regOperand b .operand2 with
      | .error e => .error e
      | .ok rt => .ok (rs, rt)
  | _ => .error countError

/-- No operand: rs and rt are the zero code, and `RTAB` is not read (R94). -/
def noOperands : List Token → Except EncodeError (RegCode × RegCode)
  | [] => .ok (0b000#3, 0b000#3)
  | _ => .error countError

/-- A register operand, then a literal (R95). -/
def registerAndLiteral : List Token → Except EncodeError (RegCode × BitVec 8)
  | [a, b] =>
    match regOperand a .operand1 with
    | .error e => .error e
    | .ok rs =>
      match immOperand b with
      | .error e => .error e
      | .ok imm => .ok (rs, imm)
  | _ => .error countError

/-- One register operand; the immediate field is eight zero bits (R55, R95). -/
def oneRegister : List Token → Except EncodeError (RegCode × BitVec 8)
  | [a] =>
    match regOperand a .operand1 with
    | .error e => .error e
    | .ok rs => .ok (rs, 0x00#8)
  | _ => .error countError

end Sys2Proof.Machine
end

