-- ==== Sys2Proof/Machine/Render.lean ====
section
/-! DEFINITION. Machine/Render.lean: the FieldPacker (spec/40_pipeline.md R96, R97) and the renderers (R98, R99). -/

namespace Sys2Proof.Machine

/-- `packR`: opcode, rs, rt, a zero bit, four zero bits of shamt, and the low bit of the sub-opcode (R96). -/
def packR (opcode : Opcode) (rs rt : RegCode) (subop : BitVec 3) : Word :=
  opcode ++ rs ++ rt ++ 0b0#1 ++ 0b0000#4 ++ subop.extractLsb' 0 1

/-- `packI`: opcode, rs, the unsigned flag, and the immediate (R97). -/
def packI (opcode : Opcode) (rs : RegCode) (u : BitVec 1) (imm : BitVec 8) : Word :=
  opcode ++ rs ++ u ++ imm

/-- The binary string of a word: `bin[i]` is the character of bit `15 - i` (R98). -/
def renderBin (w : Word) : Text :=
  (List.range Config.wordBits).map fun i => if w.getLsbD (15 - i) then 0x31#8 else 0x30#8

/-- `hexdigit(n)`: `0` to `9`, then `A` to `F` (R99, GK4). -/
def hexDigit (n : BitVec 4) : Byte :=
  if n.toNat < 10 then BitVec.ofNat 8 (0x30 + n.toNat) else BitVec.ofNat 8 (0x41 + (n.toNat - 10))

/-- The hex rendering of a word, the most significant digit first (R99). -/
def renderHex (w : Word) : Text :=
  [hexDigit (w.extractLsb' 12 4), hexDigit (w.extractLsb' 8 4),
   hexDigit (w.extractLsb' 4 4), hexDigit (w.extractLsb' 0 4)]

end Sys2Proof.Machine
end

