-- ==== Sys2Proof/Machine/Ops.lean ====
section
/-! DEFINITION. Machine/Ops.lean: the block's interface: handing a line over, delivering a response and the end of its delivery, taking an error,
sampling the ports, the reset input. -/

namespace Sys2Proof.Machine

/-- The outside world hands a line to the block (R9 item 8, R16). -/
def State.placeRequest (s : State) (line : Line) : State :=
  { s with requests := s.requests ++ [line] }

/-- The response to the oldest pending request (R16): one request has one response, and nothing else changes. -/
def State.deliver (s : State) (r : Result) : State :=
  { s with requests := s.requests.tail, response := some r }

/-- The delivery of a response is over: neither its word nor its renderings are readable any more (R15). Log 1. -/
def State.retire (s : State) : State :=
  { s with response := none }

/-- The `Ok` result of a word with its two renderings (R98 to R100). -/
def okResult (w : Word) : Result :=
  .ok w (renderBin w) (renderHex w)

/-- Taking an error: the operation ends with the `Err` result in place of a word; nothing is saved and nothing else
is changed (R146, R150). There is no return from it, since there is nothing to restore: the next request is served
as if the failed one had not been made (R148, R149). -/
def State.takeError (s : State) (e : EncodeError) : State :=
  s.deliver (.err e)

/-- The end of an encode operation: an error or the `Ok` of its word (R100, R102). -/
def State.respond (s : State) : Except EncodeError Word → Host.Outcome State Fault Refusal
  | .ok w => .next (s.deliver (okResult w))
  | .error e => .next (s.takeError e)

/-- A line whose first token is no mnemonic, or which has no token (R83, R84, R141). -/
def rejectMnemonic (m : Token) (s : State) : Host.Outcome State Fault Refusal :=
  .next (s.takeError (unknownMnemonic m))

/-- The reset input: requests in flight get no response, and the outputs are unspecified until the next response
(R170, R171). The tables are constants. Log 12. -/
def State.blockReset (s : State) : State :=
  { s with requests := [], response := none }

/-! ## The output ports (R16, R145) -/

/-- The code of an error kind on `err_code` (R145). -/
def ErrorKind.code : ErrorKind → BitVec 3
  | .unknownInstruction => 1#3
  | .unknownRegister => 2#3
  | .malformedImmediate => 3#3
  | .operandCount => 4#3

/-- The code of an error field on `err_field` (R145). -/
def ErrorField.code : ErrorField → BitVec 2
  | .mnemonic => 0#2
  | .operand1 => 1#2
  | .operand2 => 2#2
  | .operandList => 3#2

/-- Sampling `ok` (R16). -/
def sampleOk (s : State) : Except Fault (BitVec 1) :=
  match s.response with
  | none => .error .noResponse
  | some (.ok _ _ _) => .ok 1#1
  | some (.err _) => .ok 0#1

/-- Sampling `word`, meaningful only when `ok = 1` (R16, R150). -/
def sampleWord (s : State) : Except Fault Word :=
  match s.response with
  | none => .error .noResponse
  | some (.ok w _ _) => .ok w
  | some (.err _) => .error .portNotMeaningful

/-- Sampling `hex`, meaningful only when `ok = 1` (R16, R150). -/
def sampleHex (s : State) : Except Fault Text :=
  match s.response with
  | none => .error .noResponse
  | some (.ok _ _ hex) => .ok hex
  | some (.err _) => .error .portNotMeaningful

/-- Sampling `err_code`, 0 when `ok = 1` (R16, R145). -/
def sampleErrCode (s : State) : Except Fault (BitVec 3) :=
  match s.response with
  | none => .error .noResponse
  | some (.ok _ _ _) => .ok 0#3
  | some (.err e) => .ok e.kind.code

/-- Sampling `err_field`, meaningful only when `ok = 0` (R16, R145). -/
def sampleErrField (s : State) : Except Fault (BitVec 2) :=
  match s.response with
  | none => .error .noResponse
  | some (.ok _ _ _) => .error .portNotMeaningful
  | some (.err e) => .ok e.field.code

end Sys2Proof.Machine
end

