-- ==== Sys2Proof/Machine/IType.lean ====
section
/-! DEFINITION. Machine/IType.lean: the I-type instructions (spec/42_itype.md). -/

namespace Sys2Proof.Machine

/-- The word of a register and a literal under an opcode and an unsigned flag (R95, R97). -/
def encodeRegImm (opcode : Opcode) (u : BitVec 1) (ops : List Token) : Except EncodeError Word :=
  match registerAndLiteral ops with
  | .ok (rs, imm) => .ok (packI opcode rs u imm)
  | .error e => .error e

/-- The word of one register under an opcode and an unsigned flag, with no immediate (R95, R97). -/
def encodeOneReg (opcode : Opcode) (u : BitVec 1) (ops : List Token) : Except EncodeError Word :=
  match oneRegister ops with
  | .ok (rs, imm) => .ok (packI opcode rs u imm)
  | .error e => .error e

/-- `addi` (R130). -/
def execAddi (ops : List Token) (s : State) : Host.Outcome State Fault Refusal :=
  s.respond (encodeRegImm 0b0001#4 (unsignedFlag keyAddi) ops)

/-- `addui` (R131): the only mnemonic that sets the unsigned bit. -/
def execAddui (ops : List Token) (s : State) : Host.Outcome State Fault Refusal :=
  s.respond (encodeRegImm 0b0001#4 (unsignedFlag keyAddui) ops)

/-- `bz` (R132): the literal is copied, not computed from any address. -/
def execBz (ops : List Token) (s : State) : Host.Outcome State Fault Refusal :=
  s.respond (encodeRegImm 0b1000#4 (unsignedFlag keyBz) ops)

/-- `bp` (R133): the literal is copied, not computed from any address. -/
def execBp (ops : List Token) (s : State) : Host.Outcome State Fault Refusal :=
  s.respond (encodeRegImm 0b1010#4 (unsignedFlag keyBp) ops)

/-- `put` (R134). -/
def execPut (ops : List Token) (s : State) : Host.Outcome State Fault Refusal :=
  s.respond (encodeOneReg 0b1111#4 (unsignedFlag keyPut) ops)

end Sys2Proof.Machine
end

