-- ==== Sys2Proof/Machine/RType.lean ====
section
/-! DEFINITION. Machine/RType.lean: the R-type instructions (spec/41_rtype.md). -/

namespace Sys2Proof.Machine

/-- The word of two register operands under an opcode and a sub-opcode (R94, R96). -/
def encodeTwoRegs (opcode : Opcode) (subop : BitVec 3) (ops : List Token) : Except EncodeError Word :=
  match twoRegisters ops with
  | .ok (rs, rt) => .ok (packR opcode rs rt subop)
  | .error e => .error e

/-- The word of an R-type instruction without operands (R94, R96). -/
def encodeNoRegs (opcode : Opcode) (subop : BitVec 3) (ops : List Token) : Except EncodeError Word :=
  match noOperands ops with
  | .ok (rs, rt) => .ok (packR opcode rs rt subop)
  | .error e => .error e

/-- `add` (R120). -/
def execAdd (ops : List Token) (s : State) : Host.Outcome State Fault Refusal :=
  s.respond (encodeTwoRegs 0b0000#4 0b000#3 ops)

/-- `mult` (R121). -/
def execMult (ops : List Token) (s : State) : Host.Outcome State Fault Refusal :=
  s.respond (encodeTwoRegs 0b0010#4 0b000#3 ops)

/-- `lw` (R122). The block performs no memory access. -/
def execLw (ops : List Token) (s : State) : Host.Outcome State Fault Refusal :=
  s.respond (encodeTwoRegs 0b0110#4 0b000#3 ops)

/-- `sw` (R123): the only entry whose sub-opcode bit is 1. The block performs no memory access. -/
def execSw (ops : List Token) (s : State) : Host.Outcome State Fault Refusal :=
  s.respond (encodeTwoRegs 0b0110#4 0b001#3 ops)

/-- `halt` (R124). The block does not stop after encoding it. -/
def execHalt (ops : List Token) (s : State) : Host.Outcome State Fault Refusal :=
  s.respond (encodeNoRegs 0b0111#4 0b000#3 ops)

end Sys2Proof.Machine
end

