-- ==== Sys2Proof/Machine/Dispatch.lean ====
section
/-! DEFINITION. Machine/Dispatch.lean: one arm per instruction of spec/opcode_table.json. -/

namespace Sys2Proof.Machine

def exec (i : Instr) (s : State) : Host.Outcome State Fault Refusal :=
  match i with
  | .add ops => Sys2Proof.Machine.execAdd ops s
  | .mult ops => Sys2Proof.Machine.execMult ops s
  | .lw ops => Sys2Proof.Machine.execLw ops s
  | .sw ops => Sys2Proof.Machine.execSw ops s
  | .halt ops => Sys2Proof.Machine.execHalt ops s
  | .addi ops => Sys2Proof.Machine.execAddi ops s
  | .addui ops => Sys2Proof.Machine.execAddui ops s
  | .bz ops => Sys2Proof.Machine.execBz ops s
  | .bp ops => Sys2Proof.Machine.execBp ops s
  | .put ops => Sys2Proof.Machine.execPut ops s

end Sys2Proof.Machine
end

