-- ==== Sys2Proof/Machine/Pipeline.lean ====
section
/-! DEFINITION. Machine/Pipeline.lean: the whole operation as one function of a line, driven by the table `ISET`
(spec/40_pipeline.md R93, R100, R101). `step` does not use it: that the step's dispatch over ten instructions gives
the same results is a statement. -/

namespace Sys2Proof.Machine

/-- The word of a table entry and its operands: the count check and the two paths of R86 and R93 to R97. -/
def encodeEntry (m : Token) (e : InstructionSpec) (ops : List Token) : Except EncodeError Word :=
  match e.form with
  | .rTwo subop => encodeTwoRegs e.opcode subop ops
  | .rNone subop => encodeNoRegs e.opcode subop ops
  | .iTwo => encodeRegImm e.opcode (unsignedFlag m) ops
  | .iOne => encodeOneReg e.opcode (unsignedFlag m) ops

/-- `encodeTokens(m, ops)` (R101). -/
def encodeTokens (m : Token) (ops : List Token) : Result :=
  match isetLookup m with
  | none => .err (unknownMnemonic m)
  | some e =>
    match encodeEntry m e ops with
    | .ok w => okResult w
    | .error err => .err err

/-- `encode(line)` (R100). -/
def encodeLine (line : Line) : Result :=
  encodeTokens (mnemonicOf (tokenize line)) (tokenize line).tail

end Sys2Proof.Machine
end

