-- ==== Sys2Proof/Machine/Driver.lean ====
section
/-! DEFINITION. Machine/Driver.lean: the host wrapper around the block (spec/20_memory.md R40 to R46), step by step and
as the function `assemble` of R46. Logs 8 to 10 and 15. -/

namespace Sys2Proof.Machine

/-- The header line `v2.0 raw` (R42). -/
def header : Text := text "v2.0 raw"

/-- A whitespace character; a comma is none (R41). -/
def isBlank (c : Byte) : Bool :=
  c == 0x20#8 || c == 0x09#8 || c == 0x0A#8 || c == 0x0B#8 || c == 0x0C#8 || c == 0x0D#8

/-- A line the host skips: all its characters are whitespace, or its first character is `#` (R41). -/
def isSkipped (line : Line) : Bool :=
  line.all isBlank || line.head? == some 0x23#8

/-- The input lines of an input text: it is split at LF, which is left out; characters after the last LF are a line
of their own (R40, log 15). -/
def splitLines : Text → List Line
  | [] => []
  | c :: cs =>
    if c = 0x0A#8 then [] :: splitLines cs
    else
      match splitLines cs with
      | [] => [[c]]
      | l :: ls => (c :: l) :: ls

/-- Starting a run: the input is handed over, the output holds the header, no failure is recorded (R46). -/
def State.startRun (s : State) (lines : List Line) : State :=
  { s with input := lines, lineIndex := 0, out := [header], phase := .reading }

/-- Starting a run on an input text (R40, R46). -/
def State.startRunText (s : State) (input : Text) : State :=
  s.startRun (splitLines input)

/-- The host skips a line: no output line (R41). -/
def State.skipLine (s : State) (rest : List Line) : State :=
  { s with input := rest, lineIndex := s.lineIndex + 1 }

/-- The host hands a line to the block (R40). -/
def State.handOver (s : State) (line : Line) (rest : List Line) : State :=
  { s with requests := s.requests ++ [line], input := rest, phase := .waiting }

/-- The host writes the word of a successful response (R43). -/
def State.writeWord (s : State) (hex : Text) : State :=
  { s with out := s.out ++ [hex], lineIndex := s.lineIndex + 1, phase := .reading }

/-- The host aborts the run at an error: nothing is written for the line, no later line is encoded (R44). -/
def State.abortRun (s : State) (e : EncodeError) : State :=
  { s with phase := .failed s.lineIndex e }

/-- The host takes the response it waits for (R43, R44); it goes on waiting where there is none. -/
def collectResponse (s : State) : State :=
  match s.response with
  | some (.ok _ _ hex) => s.writeWord hex
  | some (.err e) => s.abortRun e
  | none => s

/-- The host reads its next input line, or ends the run (R40, R41, R46). -/
def readInput (s : State) : State :=
  match s.input with
  | [] => { s with phase := .finished }
  | line :: rest => if isSkipped line then s.skipLine rest else s.handOver line rest

/-- What the host wrapper does in its phase. -/
def hostMove (s : State) : State :=
  match s.phase with
  | .idle => s
  | .reading => readInput s
  | .waiting => collectResponse s
  | .finished => s
  | .failed _ _ => s

/-- One step of the host wrapper, taken when no request is pending. The response that was being delivered is taken in
this step or by nobody; after it nothing of it is readable (R15). -/
def driverStep (s : State) : State :=
  (hostMove s).retire

/-- The number of words of the image so far: the word index of the next word (R35). -/
def State.wordIndex (s : State) : Nat :=
  s.out.length - 1

/-- The outcome of a run (R44, R46). -/
inductive RunOutcome where
  /-- The complete output, line by line. -/
  | image (lines : List Text)
  /-- The index of the failing line among all input lines, and its error. There is no image. -/
  | failed (n : Nat) (e : EncodeError)
deriving DecidableEq, Repr

/-- The outcome of the host's run, once it has ended; a failed run has no image (R44). -/
def State.outcome (s : State) : Option RunOutcome :=
  match s.phase with
  | .idle => none
  | .reading => none
  | .waiting => none
  | .finished => some (.image s.out)
  | .failed n e => some (.failed n e)

/-- The loop of R46 from line index `n` on, with the output so far. -/
def assembleFrom (n : Nat) (out : List Text) : List Line → RunOutcome
  | [] => .image out
  | line :: rest =>
    if isSkipped line then assembleFrom (n + 1) out rest
    else
      match encodeLine line with
      | .ok _ _ hex => assembleFrom (n + 1) (out ++ [hex]) rest
      | .err e => .failed n e

/-- `assemble(lines)` (R46). -/
def assemble (lines : List Line) : RunOutcome :=
  assembleFrom 0 [header] lines

/-- The output text of an image: every line, the last too, ends in LF (R42). -/
def imageText (lines : List Text) : Text :=
  lines.flatMap fun l => l ++ [0x0A#8]

/-- The output file of a run: the text of its image; a failed run has no valid image (R42, R44). -/
def RunOutcome.outputFile : RunOutcome → Option Text
  | .image lines => some (imageText lines)
  | .failed _ _ => none

end Sys2Proof.Machine
end

