-- ==== Sys2Proof/Machine/Step.lean ====
section
/-! DEFINITION. Machine/Step.lean: one step of the machine. With a request pending the block answers the oldest one
(spec/40_pipeline.md R100); with none the host wrapper moves (spec/20_memory.md R46). -/

namespace Sys2Proof.Machine

/-- One step (logs 2, 8 and 10). -/
def step (s : State) : Host.Outcome State Fault Refusal :=
  match s.requests with
  | [] => .next (driverStep s)
  | line :: _ =>
    match parseLine line with
    | .ok i => exec i s
    | .error m => rejectMnemonic m s

/-- The state with the canonical line (R66) of the instruction of a table word as the block's oldest request, so that
the next step runs it; where the word is no instruction, the state itself. Log 11. -/
def State.withFetchWord (s : State) (nbits w : Nat) : State :=
  match decodeTableWord nbits w with
  | some i => { s with requests := lineOf i :: s.requests }
  | none => s

end Sys2Proof.Machine
end

