-- ==== Sys2Proof/WellFormed.lean ====
section
/-! DEFINITION. WellFormed.lean: which instructions are well formed (spec/30_encoding.md R62), and which are written
in the canonical text of R66. -/

namespace Sys2Proof

/-- A register token (R63). -/
def isRegister (t : Token) : Bool := (rtabLookup t).isSome

/-- A literal whose value is in 0 to 255 (R64). -/
def isImmediate (t : Token) : Bool := (immediateOf t).isSome

/-- Two operands, both registers (R62). -/
def wfRegs : List Token → Bool
  | [a, b] => isRegister a && isRegister b
  | _ => false

/-- Two operands, a register and a literal (R62). -/
def wfImm : List Token → Bool
  | [a, b] => isRegister a && isImmediate b
  | _ => false

/-- One operand, a register (R62). -/
def wfReg : List Token → Bool
  | [a] => isRegister a
  | _ => false

/-- The right number of operands, each of the kind its position requires (R62). -/
def Instr.wf : Instr → Bool
  | .add ops => wfRegs ops
  | .mult ops => wfRegs ops
  | .lw ops => wfRegs ops
  | .sw ops => wfRegs ops
  | .halt ops => ops.isEmpty
  | .addi ops => wfImm ops
  | .addui ops => wfImm ops
  | .bz ops => wfImm ops
  | .bp ops => wfImm ops
  | .put ops => wfReg ops

/-- The canonical text of a literal operand (R66); a token that is no literal stays as it is. -/
def canonLiteral (t : Token) : Token :=
  match immediateOf t with
  | some v => immToken v
  | none => t

/-- The operands of a register and literal instruction, the literal in canonical text (R66). -/
def canonImm : List Token → List Token
  | [a, b] => [a, canonLiteral b]
  | ops => ops

/-- The instruction with its operands in the canonical text of R66: register tokens have one spelling only (R13), so
only a literal operand can change. -/
def Instr.canonical : Instr → Instr
  | .add ops => .add ops
  | .mult ops => .mult ops
  | .lw ops => .lw ops
  | .sw ops => .sw ops
  | .halt ops => .halt ops
  | .addi ops => .addi (canonImm ops)
  | .addui ops => .addui (canonImm ops)
  | .bz ops => .bz (canonImm ops)
  | .bp ops => .bp (canonImm ops)
  | .put ops => .put ops

/-- A well-formed instruction written in the canonical text of R66: the text `decode` answers with. -/
def Instr.isCanonical (i : Instr) : Bool := i.wf && i.canonical == i

end Sys2Proof
end

