-- ==== Sys2Proof/Safety.lean ====
section
/-! DEFINITION. Safety.lean: what counts as a safe state, and the terms the statements use: the rules of
spec/41_rtype.md and spec/42_itype.md written as functions of the operands, the reading of a rendered numeral, and
the responses of a run. -/

namespace Sys2Proof.Machine

/-! ## The rules' outcomes, independent of the tables -/

/-- The index of a register token: three characters, `$`, `r`, and a digit `0` to `7` (R13, R63). -/
def registerIndex : Token → Option Nat
  | [a, b, c] =>
    if a = 0x24#8 ∧ b = 0x72#8 ∧ 0x30 ≤ c.toNat ∧ c.toNat ≤ 0x37 then some (c.toNat - 0x30) else none
  | _ => none

/-- The `Ok` result of a word given by its value. -/
def okValue (n : Nat) : Result := okResult (BitVec.ofNat 16 n)

/-- The outcome of R120 to R123 for an operand list; `base` is the value of the word with both registers 0. -/
def ruleTwoRegisters (base : Nat) : List Token → Result
  | [a, b] =>
    match registerIndex a with
    | none => .err ⟨.unknownRegister, .operand1, a⟩
    | some rs =>
      match registerIndex b with
      | none => .err ⟨.unknownRegister, .operand2, b⟩
      | some rt => okValue (base + 512 * rs + 64 * rt)
  | _ => .err ⟨.operandCount, .operandList, []⟩

/-- The outcome of R130 to R133 for an operand list; `base` is the value of the word with register 0 and
immediate 0. -/
def ruleRegisterLiteral (base : Nat) : List Token → Result
  | [a, b] =>
    match registerIndex a with
    | none => .err ⟨.unknownRegister, .operand1, a⟩
    | some rs =>
      match readInteger b with
      | none => .err ⟨.malformedImmediate, .operand2, b⟩
      | some v =>
        if v < 0 ∨ 255 < v then .err ⟨.malformedImmediate, .operand2, b⟩
        else okValue (base + 512 * rs + v.toNat)
  | _ => .err ⟨.operandCount, .operandList, []⟩

/-- The outcome of R134 for an operand list. -/
def ruleOneRegister (base : Nat) : List Token → Result
  | [a] =>
    match registerIndex a with
    | none => .err ⟨.unknownRegister, .operand1, a⟩
    | some rs => okValue (base + 512 * rs)
  | _ => .err ⟨.operandCount, .operandList, []⟩

/-- The outcome of R124 for an operand list. -/
def ruleNoOperand (base : Nat) : List Token → Result
  | [] => okValue base
  | _ :: _ => .err ⟨.operandCount, .operandList, []⟩

/-! ## Producible words -/

/-- The mnemonic, match and mask columns of R57. -/
def rowTable : List (Token × Word × Word) :=
  [(keyAdd, 0x0000#16, 0xF03F#16), (keyMult, 0x2000#16, 0xF03F#16), (keyLw, 0x6000#16, 0xF03F#16),
   (keySw, 0x6001#16, 0xF03F#16), (keyHalt, 0x7000#16, 0xFFFF#16), (keyAddi, 0x1000#16, 0xF100#16),
   (keyAddui, 0x1100#16, 0xF100#16), (keyBz, 0x8000#16, 0xF100#16), (keyBp, 0xA000#16, 0xF100#16),
   (keyPut, 0xF000#16, 0xF1FF#16)]

/-- A word that some row of R57 covers: the words an `Ok` result can carry (R58). -/
def producible (w : Word) : Bool :=
  rowTable.any fun p => (w &&& p.2.2) == p.2.1

/-! ## Rendered numerals -/

/-- The value of an upper-case hexadecimal digit (R99). -/
def hexDigitValue (c : Byte) : Nat :=
  if c.toNat < 0x41 then c.toNat - 0x30 else c.toNat - 0x41 + 10

/-- The value of a text read as a base-16 numeral. -/
def hexValue (t : Text) : Nat :=
  t.foldl (fun v c => 16 * v + hexDigitValue c) 0

/-- The value of a text read as a base-2 numeral. -/
def binValue (t : Text) : Nat :=
  t.foldl (fun v c => 2 * v + digitValue c) 0

/-- A character of `0`-`9`, `A`-`F` (R103). -/
def isUpperHex (c : Byte) : Bool :=
  (0x30 ≤ c.toNat && c.toNat ≤ 0x39) || (0x41 ≤ c.toNat && c.toNat ≤ 0x46)

/-! ## Legal results and the invariant -/

/-- The pairs of kind and field that can occur (R145). -/
def errorPairs : List (ErrorKind × ErrorField) :=
  [(.unknownInstruction, .mnemonic), (.unknownRegister, .operand1), (.unknownRegister, .operand2),
   (.malformedImmediate, .operand2), (.operandCount, .operandList)]

/-- An error as the block reports it: a pair of R145, and the empty token with `OperandCountError` (R144). -/
def EncodeError.legal (e : EncodeError) : Bool :=
  errorPairs.contains (e.kind, e.field) && (e.kind != .operandCount || e.token == [])

/-- A result as the block delivers it: a producible word with its own renderings (R58, R98, R99, R103), or a legal
error. -/
def Result.legal : Result → Bool
  | .ok w bin hex => producible w && bin == renderBin w && hex == renderHex w
  | .err e => e.legal

/-- An output line that is the hex rendering of a producible word: four upper-case digits whose value is the word
(R43, R58, R103). -/
def isWordLine (t : Text) : Bool :=
  t.length == 4 && t.all isUpperHex && producible (BitVec.ofNat 16 (hexValue t))

/-- An image so far: the header, then one word line per accepted instruction (R42, R43). -/
def isImage : List Text → Bool
  | [] => false
  | h :: ws => h == header && ws.all isWordLine

/-- A legal phase: a failed run failed at the line in hand, with a legal error (R44), and while the host waits its own
request is pending or its response is being delivered. -/
def State.phaseLegal (s : State) : Bool :=
  match s.phase with
  | .idle => true
  | .reading => true
  | .waiting => s.requests.length == 1 || (s.requests == [] && s.response.isSome)
  | .finished => s.input == []
  | .failed n e => n == s.lineIndex && e.legal

/-- The invariant of the machine: the response is one that the block delivers; once a run is started the output is
an image so far, and it holds at most one word per input line read (R35); the phase is legal. -/
def State.Inv (s : State) : Prop :=
  (∀ r, s.response = some r → r.legal = true) ∧
  (s.phase = .idle ∨ (isImage s.out = true ∧ s.wordIndex ≤ s.lineIndex)) ∧
  s.phaseLegal = true

/-! ## Runs -/

/-- `k` steps, stopping at the first fault or refusal: the run of `Sys2Proof.core` (Host/Core.lean), on the model's own
names. -/
def runSteps : Nat → State → Host.Outcome State Fault Refusal
  | 0, s => .next s
  | k + 1, s =>
    match step s with
    | .next t => runSteps k t
    | .fault r => .fault r
    | .refused r => .refused r

/-- The responses the block gives in the next `k` steps, in order (R16). -/
def responsesIn : Nat → State → List Result
  | 0, _ => []
  | k + 1, s =>
    match step s with
    | .next t =>
      match s.requests, t.response with
      | _ :: _, some r => r :: responsesIn k t
      | _, _ => responsesIn k t
    | .fault _ => []
    | .refused _ => []

end Sys2Proof.Machine
end

