-- ==== Sys2Proof/Certificates/Slice0/Obligations.lean ====
section
/-! DEFINITION. Certificates/Slice0/Obligations.lean: the statements for the provers. -/

open Sys2Proof Sys2Proof.Machine

/-! ## The step and the decoded instruction -/

/-- When the oldest pending line reads as an instruction, the step is that instruction's `exec` on the same state:
this machine's step adds nothing around `exec` (R100). -/
def Obligations.StepRunsTheDecodedInstruction : Prop :=
  ∀ (s : State) (line : Line) (rest : List Line) (i : Instr),
    s.requests = line :: rest → parseLine line = .ok i → step s = exec i s

/-- A line reads as an instruction exactly when its first token is a key of `ISET`: then it is the instruction of
that mnemonic with the remaining tokens as operands (R81, R84, R85). -/
def Obligations.LineReadsAsItsMnemonicsInstruction : Prop :=
  ∀ (line : Line) (i : Instr),
    parseLine line = .ok i ↔
      ((tokenize line).head? = some i.key ∧ i.ops = (tokenize line).tail)

/-- A line whose mnemonic is no key of `ISET` is answered with `UnknownInstructionError(MNEMONIC, m)`, never with a
word (R59, R84, R141); every other part of the state stays as it is. -/
def Obligations.AbsentMnemonicIsAnError : Prop :=
  ∀ (s : State) (line : Line) (rest : List Line),
    s.requests = line :: rest → isetLookup ((tokenize line).headD []) = none →
      step s = .next { s with
        requests := rest,
        response := some (.err ⟨.unknownInstruction, .mnemonic, (tokenize line).headD []⟩) }

/-- A line with no token, of length 0 or of separators only, is answered with
`UnknownInstructionError(MNEMONIC, "")` (R83). -/
def Obligations.LineWithoutTokenIsAnError : Prop :=
  ∀ (s : State) (line : Line) (rest : List Line),
    s.requests = line :: rest → (∀ c ∈ line, isSep c = true) →
      step s = .next { s with
        requests := rest, response := some (.err ⟨.unknownInstruction, .mnemonic, []⟩) }

/-! ## Reading and writing words -/

/-- Words written out bit by bit from R57 and the worked examples X1 to X5 read as the instructions they stand
for. -/
def Obligations.WrittenOutWordsDecode : Prop :=
  decode 0b0000001010000000#16 = .ok (.add [text "$r1", text "$r2"]) ∧
  decode 0b0010011100000000#16 = .ok (.mult [text "$r3", text "$r4"]) ∧
  decode 0b0110001010000001#16 = .ok (.sw [text "$r1", text "$r2"]) ∧
  decode 0b0111000000000000#16 = .ok (.halt []) ∧
  decode 0b0001000000000101#16 = .ok (.addi [text "$r0", text "5"]) ∧
  decode 0b0001011111111111#16 = .ok (.addui [text "$r3", text "255"]) ∧
  decode 0b1010010000001010#16 = .ok (.bp [text "$r2", text "10"]) ∧
  decode 0b1111010000000000#16 = .ok (.put [text "$r2"])

/-- Decoding the word of an instruction in canonical text gives the instruction back, for all ten mnemonics and every
operand value (R57, R66). -/
def Obligations.DecodeOfEncodeIsTheInstruction : Prop :=
  ∀ i : Instr, i.isCanonical = true → ∃ w, encode i = some w ∧ decode w = .ok i

/-- A well-formed instruction and its canonical text have the same word, so decoding the word of any well-formed
instruction gives its canonical text: the map from text to word is not injective (R66). -/
def Obligations.DecodeOfEncodeIsTheCanonicalText : Prop :=
  ∀ i : Instr, i.wf = true →
    i.canonical.isCanonical = true ∧
    ∃ w, encode i = some w ∧ encode i.canonical = some w ∧ decode w = .ok i.canonical

/-- An instruction read from a word is in canonical text, and encoding it gives the word back (R66). -/
def Obligations.EncodeOfDecodeIsTheWord : Prop :=
  ∀ (w : Word) (i : Instr), decode w = .ok i → i.isCanonical = true ∧ encode i = some w

/-- The whole operation on the canonical source text of a word gives the word back (R66). -/
def Obligations.EncodingTheCanonicalLineGivesTheWord : Prop :=
  ∀ (w : Word) (i : Instr), decode w = .ok i → encodeLine (lineOf i) = okResult w

/-- Two well-formed instructions have the same word only if they have the same mnemonic, registers and immediate
value, that is, the same canonical text (R66, Q3). -/
def Obligations.WordDeterminesTheInstruction : Prop :=
  ∀ (i j : Instr) (w : Word),
    i.wf = true → j.wf = true → encode i = some w → encode j = some w → i.canonical = j.canonical

/-- No word is covered by two rows of R57. -/
def Obligations.RowsAreDisjoint : Prop :=
  ∀ (w : Word), ∀ p ∈ rowTable, ∀ q ∈ rowTable,
    w &&& p.2.2 = p.2.1 → w &&& q.2.2 = q.2.1 → p = q

/-- R57 for every row: a word is the word of some accepted line with the row's mnemonic if and only if
`(w AND mask) = match`. -/
def Obligations.RowCoversExactlyItsMnemonicsWords : Prop :=
  ∀ p ∈ rowTable, ∀ w : Word,
    (∃ (line : Line) (bin hex : Text),
      (tokenize line).head? = some p.1 ∧ encodeLine line = .ok w bin hex) ↔ w &&& p.2.2 = p.2.1

/-- R58: the words of `Ok` results are exactly those that a row of R57 covers, there are 8457 of them, and none has an
unassigned opcode or a constant field that differs. -/
def Obligations.EmittedWordsAreExactly8457 : Prop :=
  (∀ w : Word, (∃ (line : Line) (bin hex : Text), encodeLine line = .ok w bin hex) ↔
    ∃ p ∈ rowTable, w &&& p.2.2 = p.2.1) ∧
  Nat.card { w : Word // ∃ (line : Line) (bin hex : Text), encodeLine line = .ok w bin hex } = 8457 ∧
  ∀ (line : Line) (w : Word) (bin hex : Text), encodeLine line = .ok w bin hex →
    opcodeField w ∉ [0b0011#4, 0b0100#4, 0b0101#4, 0b1001#4, 0b1011#4, 0b1100#4, 0b1101#4, 0b1110#4] ∧
    (opcodeField w ∈ [0b0000#4, 0b0010#4, 0b0110#4] → w.extractLsb' 1 5 = 0#5) ∧
    (opcodeField w ∈ [0b0000#4, 0b0010#4] → w.getLsbD 0 = false) ∧
    (opcodeField w = 0b0111#4 → w = 0x7000#16) ∧
    (opcodeField w ∈ [0b1000#4, 0b1010#4] → w.getLsbD 8 = false) ∧
    (opcodeField w = 0b1111#4 → w.extractLsb' 0 9 = 0#9)

/-! ## The rules of the ten instructions -/

/-- R120: the table entry of `add`; the outcome of every operand list, with everything else unchanged; the encoding
of every word. -/
def Obligations.AddFollowsItsRule : Prop :=
  isetLookup (text "add") = some ⟨0b0000#4, .rTwo 0b000#3⟩ ∧
  (∀ (ops : List Token) (s : State),
    exec (.add ops) s = .next { s with
      requests := s.requests.tail, response := some (ruleTwoRegisters 0 ops) }) ∧
  ∀ (ops : List Token) (w : Word) (bin hex : Text),
    ruleTwoRegisters 0 ops = .ok w bin hex → w &&& 0xF03F#16 = 0x0000#16

/-- R121: the same for `mult`; the spelling `mul` is no instruction. -/
def Obligations.MultFollowsItsRule : Prop :=
  isetLookup (text "mult") = some ⟨0b0010#4, .rTwo 0b000#3⟩ ∧
  (∀ (ops : List Token) (s : State),
    exec (.mult ops) s = .next { s with
      requests := s.requests.tail, response := some (ruleTwoRegisters 8192 ops) }) ∧
  (∀ (ops : List Token) (w : Word) (bin hex : Text),
    ruleTwoRegisters 8192 ops = .ok w bin hex → w &&& 0xF03F#16 = 0x2000#16) ∧
  ∀ ops : List Token,
    encodeTokens (text "mul") ops = .err ⟨.unknownInstruction, .mnemonic, text "mul"⟩

/-- R122: the same for `lw`, whose words differ from those of `sw` in bit 0 only. -/
def Obligations.LwFollowsItsRule : Prop :=
  isetLookup (text "lw") = some ⟨0b0110#4, .rTwo 0b000#3⟩ ∧
  (∀ (ops : List Token) (s : State),
    exec (.lw ops) s = .next { s with
      requests := s.requests.tail, response := some (ruleTwoRegisters 24576 ops) }) ∧
  ∀ (ops : List Token) (w : Word) (bin hex : Text),
    (ruleTwoRegisters 24576 ops = .ok w bin hex → w &&& 0xF03F#16 = 0x6000#16) ∧
    (encodeTokens keyLw ops = .ok w bin hex → encodeTokens keySw ops = okResult (w ^^^ 1#16))

/-- R123: the same for `sw`, whose words are those of `lw` plus 1; it alone has a set sub-opcode bit, and of the R-type
words its own are the odd ones. -/
def Obligations.SwFollowsItsRule : Prop :=
  isetLookup (text "sw") = some ⟨0b0110#4, .rTwo 0b001#3⟩ ∧
  (∀ (ops : List Token) (s : State),
    exec (.sw ops) s = .next { s with
      requests := s.requests.tail, response := some (ruleTwoRegisters 24577 ops) }) ∧
  (∀ (ops : List Token) (w : Word) (bin hex : Text),
    (ruleTwoRegisters 24577 ops = .ok w bin hex → w &&& 0xF03F#16 = 0x6001#16) ∧
    (encodeTokens keyLw ops = .ok w bin hex → encodeTokens keySw ops = okResult (w + 1#16))) ∧
  ∀ (m : Token) (e : InstructionSpec), isetLookup m = some e →
    ((∃ b, e.subop = some b ∧ b.getLsbD 0 = true) ↔ m = keySw) ∧
    ∀ (ops : List Token) (w : Word) (bin hex : Text),
      e.format = .rType → encodeTokens m ops = .ok w bin hex → (w.getLsbD 0 = true ↔ m = keySw)

/-- R124: the table entry of `halt`, its one word, the error when an operand follows; only the text `halt` yields
0x7000. That the block does not stop after it is `NextRequestIsUnaffected`. -/
def Obligations.HaltFollowsItsRule : Prop :=
  isetLookup (text "halt") = some ⟨0b0111#4, .rNone 0b000#3⟩ ∧
  (∀ (ops : List Token) (s : State),
    exec (.halt ops) s = .next { s with
      requests := s.requests.tail, response := some (ruleNoOperand 0x7000 ops) }) ∧
  ∀ (line : Line) (bin hex : Text),
    encodeLine line = .ok 0x7000#16 bin hex → tokenize line = [text "halt"]

/-- R130: the table entry of `addi`, the outcome of every operand list, and the encoding of every word. -/
def Obligations.AddiFollowsItsRule : Prop :=
  isetLookup (text "addi") = some ⟨0b0001#4, .iTwo⟩ ∧
  (∀ (ops : List Token) (s : State),
    exec (.addi ops) s = .next { s with
      requests := s.requests.tail, response := some (ruleRegisterLiteral 4096 ops) }) ∧
  ∀ (ops : List Token) (w : Word) (bin hex : Text),
    ruleRegisterLiteral 4096 ops = .ok w bin hex → w &&& 0xF100#16 = 0x1000#16

/-- R131: the same for `addui`, whose words are those of `addi` plus 0x0100; no other I-type word has bit 8 set, and
the spelling `addiu` is no instruction. -/
def Obligations.AdduiFollowsItsRule : Prop :=
  isetLookup (text "addui") = some ⟨0b0001#4, .iTwo⟩ ∧
  (∀ (ops : List Token) (s : State),
    exec (.addui ops) s = .next { s with
      requests := s.requests.tail, response := some (ruleRegisterLiteral 4352 ops) }) ∧
  (∀ (ops : List Token) (w : Word) (bin hex : Text),
    (ruleRegisterLiteral 4352 ops = .ok w bin hex → w &&& 0xF100#16 = 0x1100#16) ∧
    (encodeTokens keyAddi ops = .ok w bin hex → encodeTokens keyAddui ops = okResult (w + 0x0100#16))) ∧
  (∀ (m : Token) (ops : List Token) (e : InstructionSpec) (w : Word) (bin hex : Text),
    isetLookup m = some e → e.format = .iType → encodeTokens m ops = .ok w bin hex →
    w.getLsbD 8 = true → m = keyAddui) ∧
  ∀ ops : List Token,
    encodeTokens (text "addiu") ops = .err ⟨.unknownInstruction, .mnemonic, text "addiu"⟩

/-- R132: the same for `bz`. -/
def Obligations.BzFollowsItsRule : Prop :=
  isetLookup (text "bz") = some ⟨0b1000#4, .iTwo⟩ ∧
  (∀ (ops : List Token) (s : State),
    exec (.bz ops) s = .next { s with
      requests := s.requests.tail, response := some (ruleRegisterLiteral 32768 ops) }) ∧
  ∀ (ops : List Token) (w : Word) (bin hex : Text),
    ruleRegisterLiteral 32768 ops = .ok w bin hex → w &&& 0xF100#16 = 0x8000#16

/-- R133: the same for `bp`, whose words are those of `bz` plus 0x2000. -/
def Obligations.BpFollowsItsRule : Prop :=
  isetLookup (text "bp") = some ⟨0b1010#4, .iTwo⟩ ∧
  (∀ (ops : List Token) (s : State),
    exec (.bp ops) s = .next { s with
      requests := s.requests.tail, response := some (ruleRegisterLiteral 40960 ops) }) ∧
  ∀ (ops : List Token) (w : Word) (bin hex : Text),
    (ruleRegisterLiteral 40960 ops = .ok w bin hex → w &&& 0xF100#16 = 0xA000#16) ∧
    (encodeTokens keyBz ops = .ok w bin hex → encodeTokens keyBp ops = okResult (w + 0x2000#16))

/-- R134: the table entry of `put`, the outcome of every operand list, and the encoding of every word. -/
def Obligations.PutFollowsItsRule : Prop :=
  isetLookup (text "put") = some ⟨0b1111#4, .iOne⟩ ∧
  (∀ (ops : List Token) (s : State),
    exec (.put ops) s = .next { s with
      requests := s.requests.tail, response := some (ruleOneRegister 61440 ops) }) ∧
  ∀ (ops : List Token) (w : Word) (bin hex : Text),
    ruleOneRegister 61440 ops = .ok w bin hex → w &&& 0xF1FF#16 = 0xF000#16

/-- `add`, `mult`, `lw` and `sw` complete with their word on every pair of register tokens, from every state. -/
def Obligations.RegisterPairInstructionsComplete : Prop :=
  ∀ (a b : RegCode) (s : State),
    exec (.add [regToken a, regToken b]) s = .next { s with
      requests := s.requests.tail, response := some (okValue (512 * a.toNat + 64 * b.toNat)) } ∧
    exec (.mult [regToken a, regToken b]) s = .next { s with
      requests := s.requests.tail, response := some (okValue (8192 + 512 * a.toNat + 64 * b.toNat)) } ∧
    exec (.lw [regToken a, regToken b]) s = .next { s with
      requests := s.requests.tail, response := some (okValue (24576 + 512 * a.toNat + 64 * b.toNat)) } ∧
    exec (.sw [regToken a, regToken b]) s = .next { s with
      requests := s.requests.tail, response := some (okValue (24577 + 512 * a.toNat + 64 * b.toNat)) }

/-- `halt` and `put` complete with their word, from every state. -/
def Obligations.HaltAndPutComplete : Prop :=
  ∀ (a : RegCode) (s : State),
    exec (.halt []) s = .next { s with
      requests := s.requests.tail, response := some (okValue 0x7000) } ∧
    exec (.put [regToken a]) s = .next { s with
      requests := s.requests.tail, response := some (okValue (61440 + 512 * a.toNat)) }

/-- `addi`, `addui`, `bz` and `bp` complete with their word on every register token and every literal in 0 to 255,
however it is spelled (R64, R89, R90), from every state. -/
def Obligations.LiteralInstructionsComplete : Prop :=
  ∀ (a : RegCode) (t : Token) (v : Nat) (s : State),
    readInteger t = some (v : Int) → v ≤ 255 →
    exec (.addi [regToken a, t]) s = .next { s with
      requests := s.requests.tail, response := some (okValue (4096 + 512 * a.toNat + v)) } ∧
    exec (.addui [regToken a, t]) s = .next { s with
      requests := s.requests.tail, response := some (okValue (4352 + 512 * a.toNat + v)) } ∧
    exec (.bz [regToken a, t]) s = .next { s with
      requests := s.requests.tail, response := some (okValue (32768 + 512 * a.toNat + v)) } ∧
    exec (.bp [regToken a, t]) s = .next { s with
      requests := s.requests.tail, response := some (okValue (40960 + 512 * a.toNat + v)) }

/-- Every well-formed instruction completes with the word of the encoder, and every ill-formed one ends with an error
(R62). -/
def Obligations.ExactlyWellFormedInstructionsComplete : Prop :=
  ∀ (i : Instr) (s : State),
    (i.wf = true → ∃ w, encode i = some w ∧ exec i s = .next { s with
      requests := s.requests.tail, response := some (okResult w) }) ∧
    (i.wf = false → ∃ e : EncodeError, exec i s = .next { s with
      requests := s.requests.tail, response := some (.err e) })

/-- What every one of the ten instructions leaves unchanged: all of the host wrapper's state. It takes one request
and gives one response (R10, R16, R146). -/
def Obligations.InstructionFrame : Prop :=
  ∀ (i : Instr) (s t : State), exec i s = .next t →
    t.input = s.input ∧ t.lineIndex = s.lineIndex ∧ t.out = s.out ∧ t.phase = s.phase ∧
    t.requests = s.requests.tail ∧ t.response ≠ none

/-! ## The whole operation -/

/-- The step answers a request with the result of R100: the dispatch over ten instructions agrees with the
table-driven operation on every line, and nothing but the request and the response changes. -/
def Obligations.StepAnswersWithTheWholeOperation : Prop :=
  ∀ (s : State) (line : Line) (rest : List Line), s.requests = line :: rest →
    step s = .next { s with requests := rest, response := some (encodeLine line) }

/-- Every step answers a next state, and a request is always answered: no fault, no refusal, no waiting (R102). A
response is not readable after its delivery, one step long here (R15; the length is the model's choice, log 1). -/
def Obligations.EveryStepAnswers : Prop :=
  ∀ s : State, ∃ t, step s = .next t ∧
    (s.requests ≠ [] → t.response ≠ none ∧ t.requests.length + 1 = s.requests.length) ∧
    (s.requests = [] → t.response = none)

/-- The result depends on the characters of the line and on nothing else (R23). -/
def Obligations.ResponseDependsOnTheLineOnly : Prop :=
  ∀ (s s' t t' : State) (line : Line) (rest rest' : List Line),
    s.requests = line :: rest → s'.requests = line :: rest' →
    step s = .next t → step s' = .next t' → t.response = t'.response

/-- The pending requests are answered in request order, each with its own line's result (R16, R36). -/
def Obligations.ResponsesComeInRequestOrder : Prop :=
  ∀ s : State, responsesIn s.requests.length s = s.requests.map encodeLine

/-- After any request, a failed one too, and after `halt`, the next one is handled as if it had been made alone
(R148). -/
def Obligations.NextRequestIsUnaffected : Prop :=
  ∀ (s : State) (line next : Line) (rest : List Line), s.requests = line :: next :: rest →
    ∃ t u, step s = .next t ∧ step t = .next u ∧ u.response = some (encodeLine next) ∧ u.requests = rest

/-- R147: which error is reported when several apply: the mnemonic, then the operand count, then operand 1, then
operand 2 as a register or as a literal. -/
def Obligations.FirstErrorInTheFixedOrder : Prop :=
  ∀ (m : Token) (ops : List Token),
    (isetLookup m = none → encodeTokens m ops = .err ⟨.unknownInstruction, .mnemonic, m⟩) ∧
    ∀ e, isetLookup m = some e →
      (ops.length ≠ e.operandCount → encodeTokens m ops = .err ⟨.operandCount, .operandList, []⟩) ∧
      (∀ a rest, ops.length = e.operandCount → ops = a :: rest → registerIndex a = none →
        encodeTokens m ops = .err ⟨.unknownRegister, .operand1, a⟩) ∧
      (∀ a b, ops.length = e.operandCount → ops = [a, b] → registerIndex a ≠ none →
        (e.format = .rType → registerIndex b = none →
          encodeTokens m ops = .err ⟨.unknownRegister, .operand2, b⟩) ∧
        (e.format = .iType → (∀ v, readInteger b = some v → v < 0 ∨ 255 < v) →
          encodeTokens m ops = .err ⟨.malformedImmediate, .operand2, b⟩))

/-- R145: the codes on the ports after a request, and the pairs that can occur, each of which does. -/
def Obligations.ErrorCodesOnThePorts : Prop :=
  (∀ (s t : State) (line : Line) (rest : List Line), s.requests = line :: rest → step s = .next t →
    (sampleOk t = .ok 1#1 ∧ sampleErrCode t = .ok 0#3) ∨
    (sampleOk t = .ok 0#1 ∧ ∃ c f, sampleErrCode t = .ok c ∧ sampleErrField t = .ok f ∧
      (c, f) ∈ [(1#3, 0#2), (2#3, 1#2), (2#3, 2#2), (3#3, 2#2), (4#3, 3#2)])) ∧
  (∀ p ∈ [(1#3, 0#2), (2#3, 1#2), (2#3, 2#2), (3#3, 2#2), (4#3, 3#2)],
    ∃ (line : Line) (t : State), step (State.reset.placeRequest line) = .next t ∧
      sampleErrCode t = .ok p.1 ∧ sampleErrField t = .ok p.2) ∧
  ErrorKind.unknownInstruction.code = 1#3 ∧ ErrorKind.unknownRegister.code = 2#3 ∧
  ErrorKind.malformedImmediate.code = 3#3 ∧ ErrorKind.operandCount.code = 4#3 ∧
  ErrorField.mnemonic.code = 0#2 ∧ ErrorField.operand1.code = 1#2 ∧
  ErrorField.operand2.code = 2#2 ∧ ErrorField.operandList.code = 3#2

/-- Taking an error: the response is the `Err`, no word and no hex can be sampled, and no other state changes
(R146, R150). -/
def Obligations.ErrorGivesNoSubstituteWord : Prop :=
  ∀ (s : State) (line : Line) (rest : List Line) (e : EncodeError),
    s.requests = line :: rest → encodeLine line = .err e →
    ∃ t, step s = .next t ∧ t = { s with requests := rest, response := some (.err e) } ∧
      sampleWord t = .error .portNotMeaningful ∧ sampleHex t = .error .portNotMeaningful

/-- What the five output ports show for no response, for an `Ok` and for an `Err` (R16). That sampling a port
without a value is a fault by name is the model's choice (logs 3 and 4). -/
def Obligations.PortsShowTheResponse : Prop :=
  ∀ s : State,
    (s.response = none →
      sampleOk s = .error .noResponse ∧ sampleWord s = .error .noResponse ∧
      sampleHex s = .error .noResponse ∧ sampleErrCode s = .error .noResponse ∧
      sampleErrField s = .error .noResponse) ∧
    (∀ w bin hex, s.response = some (.ok w bin hex) →
      sampleOk s = .ok 1#1 ∧ sampleWord s = .ok w ∧ sampleHex s = .ok hex ∧
      sampleErrCode s = .ok 0#3 ∧ sampleErrField s = .error .portNotMeaningful) ∧
    (∀ e, s.response = some (.err e) →
      sampleOk s = .ok 0#1 ∧ sampleWord s = .error .portNotMeaningful ∧
      sampleHex s = .error .portNotMeaningful ∧ sampleErrCode s = .ok e.kind.code ∧
      sampleErrField s = .ok e.field.code)

/-! ## The invariant -/

/-- The invariant holds at reset. -/
def Obligations.InvariantHoldsAtReset : Prop := State.reset.Inv

/-- Every step keeps the invariant: responses are producible words with their own renderings or legal errors, and the
host's output is the header and the words of accepted lines (R35, R42, R43, R58, R103, R145). A host that waits has
its request pending or its response on the ports (log 8). -/
def Obligations.EveryStepKeepsTheInvariant : Prop :=
  ∀ s t : State, s.Inv → step s = .next t → t.Inv

/-! ## Tokenizer -/

/-- No token is empty and none holds a separator (R80, R101). -/
def Obligations.TokensAreNonEmptyAndSeparatorFree : Prop :=
  ∀ (line : Line) (t : Token), t ∈ tokenize line → t ≠ [] ∧ ∀ c ∈ t, isSep c = false

/-- The Tokenizer drops the separators and changes no other character and no order (R80, R81). -/
def Obligations.TokensHoldTheOtherCharactersInOrder : Prop :=
  ∀ line : Line, (tokenize line).flatten = line.filter fun c => !isSep c

/-- The grammar of R61: tokens with one or more separators between two of them, and any separators before and after,
are cut into exactly those tokens. -/
def Obligations.LineGrammarIsCutIntoItsTokens : Prop :=
  ∀ (front : Text) (pairs : List (Token × Text)) (last : List Token),
    (∀ c ∈ front, isSep c = true) →
    (∀ p ∈ pairs, p.1 ≠ [] ∧ (∀ c ∈ p.1, isSep c = false) ∧ p.2 ≠ [] ∧ ∀ c ∈ p.2, isSep c = true) →
    (last.length ≤ 1 ∧ ∀ t ∈ last, t ≠ [] ∧ ∀ c ∈ t, isSep c = false) →
    tokenize (front ++ (pairs.flatMap fun p => p.1 ++ p.2) ++ last.flatten) = pairs.map Prod.fst ++ last

/-- Separator insensitivity (Q5): any separator may be replaced by any non-empty string of separators, and separators
added at either end, without changing the result. -/
def Obligations.SeparatorsAreInterchangeable : Prop :=
  ∀ (a b seps : Line) (c : Byte), isSep c = true → (∀ d ∈ seps, isSep d = true) →
    (seps ≠ [] → encodeLine (a ++ seps ++ b) = encodeLine (a ++ [c] ++ b)) ∧
    encodeLine (seps ++ a) = encodeLine a ∧ encodeLine (a ++ seps) = encodeLine a

/-! ## Tables and fields -/

/-- R13 and R14: a token is in `RTAB` exactly when it is `$r` and a digit `0` to `7`, its code is the index, and the
eight codes are all of them, each once. -/
def Obligations.RegisterTableIsTheIndexMap : Prop :=
  (∀ t : Token, rtabLookup t = (registerIndex t).map (BitVec.ofNat 3)) ∧
  (∀ c : RegCode, ∃ t, rtabLookup t = some c ∧ ∀ u, rtabLookup u = some c → u = t) ∧
  rtab.length = 8

/-- R11: `ISET`, key by character codes, opcode, stored sub-opcode, format and operand count; every other string is
absent. -/
def Obligations.InstructionTableHasExactlyTenEntries : Prop :=
  ∀ (m : Token) (op : Opcode) (sub : Option (BitVec 3)) (f : Format) (n : Nat),
    (∃ e, isetLookup m = some e ∧ e.opcode = op ∧ e.subop = sub ∧ e.format = f ∧ e.operandCount = n) ↔
    (m, op, sub, f, n) ∈
      [([0x61#8, 0x64#8, 0x64#8], 0b0000#4, some 0b000#3, Format.rType, 2),
       ([0x6D#8, 0x75#8, 0x6C#8, 0x74#8], 0b0010#4, some 0b000#3, .rType, 2),
       ([0x6C#8, 0x77#8], 0b0110#4, some 0b000#3, .rType, 2),
       ([0x73#8, 0x77#8], 0b0110#4, some 0b001#3, .rType, 2),
       ([0x68#8, 0x61#8, 0x6C#8, 0x74#8], 0b0111#4, some 0b000#3, .rType, 0),
       ([0x61#8, 0x64#8, 0x64#8, 0x69#8], 0b0001#4, none, .iType, 2),
       ([0x61#8, 0x64#8, 0x64#8, 0x75#8, 0x69#8], 0b0001#4, none, .iType, 2),
       ([0x62#8, 0x7A#8], 0b1000#4, none, .iType, 2),
       ([0x62#8, 0x70#8], 0b1010#4, none, .iType, 2),
       ([0x70#8, 0x75#8, 0x74#8], 0b1111#4, none, .iType, 1)]

/-- R64 and R89: a token spells an integer exactly when it is an optional sign and one or more decimal digits; its
value is the base-10 value of the digits, negated under a minus sign, whatever the length. -/
def Obligations.LiteralGrammar : Prop :=
  ∀ (t : Token) (v : Int),
    readInteger t = some v ↔
      ∃ (sign : Text) (digits : List Nat),
        digits ≠ [] ∧ (∀ d ∈ digits, d < 10) ∧ t = sign ++ digits.map digitChar ∧
        (((sign = [] ∨ sign = [0x2B#8]) ∧ v = ((Nat.ofDigits 10 digits.reverse : Nat) : Int)) ∨
         (sign = [0x2D#8] ∧ v = -((Nat.ofDigits 10 digits.reverse : Nat) : Int)))

/-- R96: the R-type layout as a number. -/
def Obligations.PackRIsTheLayout : Prop :=
  ∀ (opcode : Opcode) (rs rt : RegCode) (subop : BitVec 3),
    (packR opcode rs rt subop).toNat =
      4096 * opcode.toNat + 512 * rs.toNat + 64 * rt.toNat + subop.toNat % 2

/-- R97: the I-type layout as a number. -/
def Obligations.PackIIsTheLayout : Prop :=
  ∀ (opcode : Opcode) (rs : RegCode) (u : BitVec 1) (imm : BitVec 8),
    (packI opcode rs u imm).toNat = 4096 * opcode.toNat + 512 * rs.toNat + 256 * u.toNat + imm.toNat

/-- R92, S6: in every word of an I-type mnemonic the unsigned bit, bit 8, is set exactly for `addui`. -/
def Obligations.UnsignedBitIsSetExactlyForAddui : Prop :=
  ∀ (m : Token) (ops : List Token) (e : InstructionSpec) (w : Word) (bin hex : Text),
    isetLookup m = some e → e.format = .iType → encodeTokens m ops = .ok w bin hex →
    (w.getLsbD 8 = true ↔ m = keyAddui)

/-! ## Renderers -/

/-- R99, Q7: the hex rendering is four upper-case digits, and read as a numeral it is the word. -/
def Obligations.HexRenderingReadsBack : Prop :=
  ∀ w : Word, (renderHex w).length = 4 ∧ (∀ c ∈ renderHex w, isUpperHex c = true) ∧
    hexValue (renderHex w) = w.toNat

/-- R98, Q7: the binary string is sixteen characters `0` or `1`, the i-th for bit 15 - i, and read as a numeral it is
the word. -/
def Obligations.BinaryRenderingReadsBack : Prop :=
  ∀ w : Word, (renderBin w).length = 16 ∧
    (∀ i < 16, (renderBin w)[i]? = some (if w.getLsbD (15 - i) then 0x31#8 else 0x30#8)) ∧
    binValue (renderBin w) = w.toNat

/-! ## The host wrapper -/

/-- R46: from every state without a pending request, starting a run and stepping ends, within three steps a line and
one more, in the outcome of `assemble`. -/
def Obligations.RunEndsInTheAssembledOutcome : Prop :=
  ∀ (s : State) (lines : List Line), s.requests = [] →
    ∃ (k : Nat) (t : State), k ≤ 3 * lines.length + 1 ∧
      runSteps k (s.startRun lines) = .next t ∧ t.outcome = some (assemble lines)

/-- R35, R42, R43: an image is the header and then the hex rendering of each line that is not skipped, in input
order. -/
def Obligations.ImageHoldsOneWordPerAcceptedLine : Prop :=
  ∀ (lines : List Line) (ws : List Text),
    assemble lines = .image ws ↔
      ∃ hs, ws = header :: hs ∧
        List.Forall₂ (fun line hex => ∃ w bin, encodeLine line = .ok w bin hex)
          (lines.filter fun l => !isSkipped l) hs

/-- R44: a run fails exactly at the first line that is not skipped and does not encode, and its outcome carries the
line's index among all input lines and its error. -/
def Obligations.RunFailsAtTheFirstBadLine : Prop :=
  ∀ (lines : List Line) (n : Nat) (e : EncodeError),
    assemble lines = .failed n e ↔
      ∃ line, lines[n]? = some line ∧ isSkipped line = false ∧ encodeLine line = .err e ∧
        ∀ k < n, ∀ l, lines[k]? = some l → isSkipped l = false → ∃ w bin hex, encodeLine l = .ok w bin hex

/-- R41: the host skips a line exactly when all its characters are whitespace or it begins with `#`; any other line
goes to the block. -/
def Obligations.HostFiltersBlankAndCommentLines : Prop :=
  ∀ (s : State) (line : Line) (rest : List Line),
    s.requests = [] → s.phase = .reading → s.input = line :: rest →
    (((∀ c ∈ line, c ∈ [0x20#8, 0x09#8, 0x0A#8, 0x0B#8, 0x0C#8, 0x0D#8]) ∨ line.head? = some 0x23#8) →
      step s = .next { s with input := rest, lineIndex := s.lineIndex + 1, response := none }) ∧
    (¬((∀ c ∈ line, c ∈ [0x20#8, 0x09#8, 0x0A#8, 0x0B#8, 0x0C#8, 0x0D#8]) ∨ line.head? = some 0x23#8) →
      step s = .next { s with requests := [line], input := rest, phase := .waiting, response := none })

/-- R43, R44: what the host does with a response: it writes the hex of an `Ok` and goes on, and it stops for good at
an `Err`, writing nothing. -/
def Obligations.HostWritesTheWordOrAborts : Prop :=
  ∀ s : State, s.requests = [] → s.phase = .waiting →
    (∀ w bin hex, s.response = some (.ok w bin hex) →
      step s = .next { s with
        out := s.out ++ [hex], lineIndex := s.lineIndex + 1, phase := .reading, response := none }) ∧
    (∀ e, s.response = some (.err e) →
      ∃ t, step s = .next t ∧ t = { s with phase := .failed s.lineIndex e, response := none } ∧
        t.outcome = some (.failed s.lineIndex e) ∧
        ∀ k, runSteps k t = .next t)

/-- Input lines are read back from a text in which each is ended by LF, and a CR and LF left on a line change neither
the host's filter nor the block's result (R40; leaving them off is the model's choice, log 15). -/
def Obligations.LineTerminatorsDoNotMatter : Prop :=
  (∀ lines : List Line, (∀ l ∈ lines, 0x0A#8 ∉ l) →
    splitLines (lines.flatMap fun l => l ++ [0x0A#8]) = lines) ∧
  ∀ line : Line,
    encodeLine (line ++ [0x0D#8, 0x0A#8]) = encodeLine line ∧
    isSkipped (line ++ [0x0D#8, 0x0A#8]) = isSkipped line

/-- R42: the output file of a run that does not fail is its image line by line, the header first, each line ended by
LF and none holding one. -/
def Obligations.OutputFileIsTheImageLineByLine : Prop :=
  ∀ (lines : List Line) (file : Text), (assemble lines).outputFile = some file →
    ∃ ws, assemble lines = .image (text "v2.0 raw" :: ws) ∧
      file = text "v2.0 raw" ++ [0x0A#8] ++ (ws.flatMap fun l => l ++ [0x0A#8]) ∧
      splitLines file = text "v2.0 raw" :: ws

/-! ## Reset -/

/-- After reset no port shows a value: R22 calls them unspecified and not to be sampled, and that sampling one is the
fault `noResponse` is the model's choice (log 3). That no request is pending and the host wrapper is idle is the
model's choice too (logs 2 and 9). The table contents are `RegisterTableIsTheIndexMap` and
`InstructionTableHasExactlyTenEntries`. -/
def Obligations.ResetShowsNoResponse : Prop :=
  State.reset.requests = [] ∧ State.reset.phase = .idle ∧
  sampleOk State.reset = .error .noResponse ∧ sampleWord State.reset = .error .noResponse ∧
  sampleHex State.reset = .error .noResponse ∧ sampleErrCode State.reset = .error .noResponse ∧
  sampleErrField State.reset = .error .noResponse

/-- R170: requests in flight when the reset input is asserted get no response, and the next request is answered as
R100 says. That no port shows a value after it is R171 and R22, and that sampling one is then the fault `noResponse`
is the model's choice (log 3). That nothing else changes, the host wrapper's state among it, is the model's choice
(log 12). -/
def Obligations.ResetInputDropsRequestsAndResponse : Prop :=
  ∀ (s : State) (line : Line),
    (s.blockReset.requests = [] ∧ s.blockReset.input = s.input ∧ s.blockReset.lineIndex = s.lineIndex ∧
      s.blockReset.out = s.out ∧ s.blockReset.phase = s.phase) ∧
    (sampleOk s.blockReset = .error .noResponse ∧ sampleWord s.blockReset = .error .noResponse ∧
      sampleHex s.blockReset = .error .noResponse ∧ sampleErrCode s.blockReset = .error .noResponse ∧
      sampleErrField s.blockReset = .error .noResponse) ∧
    (∃ t, step s.blockReset = .next t ∧ t.response = none) ∧
    ∃ t, step (s.blockReset.placeRequest line) = .next t ∧ t.response = some (encodeLine line)
end

