-- ==== Sys2Proof/Laws/State.lean ====
section
/-! SUPPORT. Laws/State.lean: one lemma per field of State and per update. -/

namespace Sys2Proof.Machine

/-! ## placeRequest -/

@[simp] theorem placeRequest_requests (s : State) (line : Line) :
    (s.placeRequest line).requests = s.requests ++ [line] := rfl
@[simp] theorem placeRequest_response (s : State) (line : Line) :
    (s.placeRequest line).response = s.response := rfl
@[simp] theorem placeRequest_input (s : State) (line : Line) :
    (s.placeRequest line).input = s.input := rfl
@[simp] theorem placeRequest_lineIndex (s : State) (line : Line) :
    (s.placeRequest line).lineIndex = s.lineIndex := rfl
@[simp] theorem placeRequest_out (s : State) (line : Line) :
    (s.placeRequest line).out = s.out := rfl
@[simp] theorem placeRequest_phase (s : State) (line : Line) :
    (s.placeRequest line).phase = s.phase := rfl

/-! ## deliver -/

@[simp] theorem deliver_requests (s : State) (r : Result) :
    (s.deliver r).requests = s.requests.tail := rfl
@[simp] theorem deliver_response (s : State) (r : Result) :
    (s.deliver r).response = some r := rfl
@[simp] theorem deliver_input (s : State) (r : Result) :
    (s.deliver r).input = s.input := rfl
@[simp] theorem deliver_lineIndex (s : State) (r : Result) :
    (s.deliver r).lineIndex = s.lineIndex := rfl
@[simp] theorem deliver_out (s : State) (r : Result) :
    (s.deliver r).out = s.out := rfl
@[simp] theorem deliver_phase (s : State) (r : Result) :
    (s.deliver r).phase = s.phase := rfl

/-! ## retire -/

@[simp] theorem retire_requests (s : State) : s.retire.requests = s.requests := rfl
@[simp] theorem retire_response (s : State) : s.retire.response = none := rfl
@[simp] theorem retire_input (s : State) : s.retire.input = s.input := rfl
@[simp] theorem retire_lineIndex (s : State) : s.retire.lineIndex = s.lineIndex := rfl
@[simp] theorem retire_out (s : State) : s.retire.out = s.out := rfl
@[simp] theorem retire_phase (s : State) : s.retire.phase = s.phase := rfl

/-! ## takeError -/

@[simp] theorem takeError_requests (s : State) (e : EncodeError) :
    (s.takeError e).requests = s.requests.tail := rfl
@[simp] theorem takeError_response (s : State) (e : EncodeError) :
    (s.takeError e).response = some (.err e) := rfl
@[simp] theorem takeError_input (s : State) (e : EncodeError) :
    (s.takeError e).input = s.input := rfl
@[simp] theorem takeError_lineIndex (s : State) (e : EncodeError) :
    (s.takeError e).lineIndex = s.lineIndex := rfl
@[simp] theorem takeError_out (s : State) (e : EncodeError) :
    (s.takeError e).out = s.out := rfl
@[simp] theorem takeError_phase (s : State) (e : EncodeError) :
    (s.takeError e).phase = s.phase := rfl

/-! ## blockReset -/

@[simp] theorem blockReset_requests (s : State) :
    (s.blockReset).requests = [] := rfl
@[simp] theorem blockReset_response (s : State) :
    (s.blockReset).response = none := rfl
@[simp] theorem blockReset_input (s : State) :
    (s.blockReset).input = s.input := rfl
@[simp] theorem blockReset_lineIndex (s : State) :
    (s.blockReset).lineIndex = s.lineIndex := rfl
@[simp] theorem blockReset_out (s : State) :
    (s.blockReset).out = s.out := rfl
@[simp] theorem blockReset_phase (s : State) :
    (s.blockReset).phase = s.phase := rfl

/-! ## startRun -/

@[simp] theorem startRun_requests (s : State) (lines : List Line) :
    (s.startRun lines).requests = s.requests := rfl
@[simp] theorem startRun_response (s : State) (lines : List Line) :
    (s.startRun lines).response = s.response := rfl
@[simp] theorem startRun_input (s : State) (lines : List Line) :
    (s.startRun lines).input = lines := rfl
@[simp] theorem startRun_lineIndex (s : State) (lines : List Line) :
    (s.startRun lines).lineIndex = 0 := rfl
@[simp] theorem startRun_out (s : State) (lines : List Line) :
    (s.startRun lines).out = [header] := rfl
@[simp] theorem startRun_phase (s : State) (lines : List Line) :
    (s.startRun lines).phase = .reading := rfl

/-! ## skipLine -/

@[simp] theorem skipLine_requests (s : State) (rest : List Line) :
    (s.skipLine rest).requests = s.requests := rfl
@[simp] theorem skipLine_response (s : State) (rest : List Line) :
    (s.skipLine rest).response = s.response := rfl
@[simp] theorem skipLine_input (s : State) (rest : List Line) :
    (s.skipLine rest).input = rest := rfl
@[simp] theorem skipLine_lineIndex (s : State) (rest : List Line) :
    (s.skipLine rest).lineIndex = s.lineIndex + 1 := rfl
@[simp] theorem skipLine_out (s : State) (rest : List Line) :
    (s.skipLine rest).out = s.out := rfl
@[simp] theorem skipLine_phase (s : State) (rest : List Line) :
    (s.skipLine rest).phase = s.phase := rfl

/-! ## handOver -/

@[simp] theorem handOver_requests (s : State) (line : Line) (rest : List Line) :
    (s.handOver line rest).requests = s.requests ++ [line] := rfl
@[simp] theorem handOver_response (s : State) (line : Line) (rest : List Line) :
    (s.handOver line rest).response = s.response := rfl
@[simp] theorem handOver_input (s : State) (line : Line) (rest : List Line) :
    (s.handOver line rest).input = rest := rfl
@[simp] theorem handOver_lineIndex (s : State) (line : Line) (rest : List Line) :
    (s.handOver line rest).lineIndex = s.lineIndex := rfl
@[simp] theorem handOver_out (s : State) (line : Line) (rest : List Line) :
    (s.handOver line rest).out = s.out := rfl
@[simp] theorem handOver_phase (s : State) (line : Line) (rest : List Line) :
    (s.handOver line rest).phase = .waiting := rfl

/-! ## writeWord -/

@[simp] theorem writeWord_requests (s : State) (hex : Text) :
    (s.writeWord hex).requests = s.requests := rfl
@[simp] theorem writeWord_response (s : State) (hex : Text) :
    (s.writeWord hex).response = s.response := rfl
@[simp] theorem writeWord_input (s : State) (hex : Text) :
    (s.writeWord hex).input = s.input := rfl
@[simp] theorem writeWord_lineIndex (s : State) (hex : Text) :
    (s.writeWord hex).lineIndex = s.lineIndex + 1 := rfl
@[simp] theorem writeWord_out (s : State) (hex : Text) :
    (s.writeWord hex).out = s.out ++ [hex] := rfl
@[simp] theorem writeWord_phase (s : State) (hex : Text) :
    (s.writeWord hex).phase = .reading := rfl

/-! ## abortRun -/

@[simp] theorem abortRun_requests (s : State) (e : EncodeError) :
    (s.abortRun e).requests = s.requests := rfl
@[simp] theorem abortRun_response (s : State) (e : EncodeError) :
    (s.abortRun e).response = s.response := rfl
@[simp] theorem abortRun_input (s : State) (e : EncodeError) :
    (s.abortRun e).input = s.input := rfl
@[simp] theorem abortRun_lineIndex (s : State) (e : EncodeError) :
    (s.abortRun e).lineIndex = s.lineIndex := rfl
@[simp] theorem abortRun_out (s : State) (e : EncodeError) :
    (s.abortRun e).out = s.out := rfl
@[simp] theorem abortRun_phase (s : State) (e : EncodeError) :
    (s.abortRun e).phase = .failed s.lineIndex e := rfl

/-! ## reset -/

@[simp] theorem reset_requests : State.reset.requests = [] := rfl
@[simp] theorem reset_response : State.reset.response = none := rfl
@[simp] theorem reset_input : State.reset.input = [] := rfl
@[simp] theorem reset_lineIndex : State.reset.lineIndex = 0 := rfl
@[simp] theorem reset_out : State.reset.out = [] := rfl
@[simp] theorem reset_phase : State.reset.phase = .idle := rfl

end Sys2Proof.Machine
end

