-- ==== Sys2Proof/Laws/Text.lean ====
section
/-! SUPPORT. Laws/Text.lean: the small lemmas of the text layer of Decode.lean: tables, tokenizer, canonical tokens. -/

namespace Sys2Proof

/-! ## Tables -/

@[simp] theorem tableLookup_nil {α : Type} (t : Token) : tableLookup ([] : List (Token × α)) t = none := rfl

@[simp] theorem tableLookup_cons {α : Type} (k t : Token) (v : α) (rest : List (Token × α)) :
    tableLookup ((k, v) :: rest) t = if k = t then some v else tableLookup rest t := rfl

/-- A key that a table answers for stands in it with its value. -/
theorem mem_of_tableLookup {α : Type} {tab : List (Token × α)} {t : Token} {v : α}
    (h : tableLookup tab t = some v) : (t, v) ∈ tab := by
  induction tab with
  | nil => simp at h
  | cons p rest ih =>
    obtain ⟨k, w⟩ := p
    rw [tableLookup_cons] at h
    split at h
    · simp_all
    · exact List.mem_cons_of_mem _ (ih h)

/-- A lookup is absent exactly when the key is none of the table's keys. -/
theorem tableLookup_eq_none {α : Type} (tab : List (Token × α)) (t : Token) :
    tableLookup tab t = none ↔ t ∉ tab.map Prod.fst := by
  induction tab with
  | nil => simp
  | cons p rest ih =>
    obtain ⟨k, w⟩ := p
    rw [tableLookup_cons]
    split
    · simp_all
    · simp_all [eq_comm]

/-! ## Register tokens -/

@[simp] theorem rtabLookup_regToken (c : RegCode) : rtabLookup (regToken c) = some c := by
  revert c; decide

/-- The register tokens are the only keys of `RTAB`. -/
theorem rtabLookup_some {t : Token} {c : RegCode} (h : rtabLookup t = some c) : t = regToken c := by
  have spelled : ∀ entry ∈ rtab, entry.1 = regToken entry.2 := by decide
  exact spelled _ (mem_of_tableLookup h)

/-! ## Canonical literals -/

theorem immediateOf_immToken_nat : ∀ n : Fin 256, immediateOf (numeralOf n.val) = some (BitVec.ofNat 8 n.val) := by
  decide +kernel

@[simp] theorem immediateOf_immToken (v : BitVec 8) : immediateOf (immToken v) = some v := by
  have h := immediateOf_immToken_nat ⟨v.toNat, v.isLt⟩
  simpa [immToken] using h

@[simp] theorem canonLiteral_of_some {t : Token} {v : BitVec 8} (h : immediateOf t = some v) :
    canonLiteral t = immToken v := by
  simp [canonLiteral, h]

/-! ## Tokenizer -/

@[simp] theorem flushToken_nil : flushToken [] = [] := rfl

theorem flushToken_of_ne_nil {t : Token} (h : t ≠ []) : flushToken t = [t] := by
  simp [flushToken, h]

@[simp] theorem tokenizeFrom_nil (cur : Token) : tokenizeFrom cur [] = flushToken cur := rfl

theorem tokenizeFrom_sep (cur : Token) {c : Byte} (rest : Line) (h : isSep c = true) :
    tokenizeFrom cur (c :: rest) = flushToken cur ++ tokenizeFrom [] rest := by
  simp [tokenizeFrom, h]

theorem tokenizeFrom_char (cur : Token) {c : Byte} (rest : Line) (h : isSep c = false) :
    tokenizeFrom cur (c :: rest) = tokenizeFrom (cur ++ [c]) rest := by
  simp [tokenizeFrom, h]

/-- Characters that are no separators are collected. -/
theorem tokenizeFrom_append {t : Token} (cur : Token) (rest : Line) (h : ∀ c ∈ t, isSep c = false) :
    tokenizeFrom cur (t ++ rest) = tokenizeFrom (cur ++ t) rest := by
  induction t generalizing cur with
  | nil => simp
  | cons c cs ih =>
    rw [List.cons_append, tokenizeFrom_char cur _ (h c (by simp)), ih _ fun d hd => h d (by simp [hd])]
    simp

/-- A token alone is flushed whole. -/
theorem tokenizeFrom_token {t : Token} (cur : Token) (h : ∀ c ∈ t, isSep c = false) :
    tokenizeFrom cur t = flushToken (cur ++ t) := by
  simpa using tokenizeFrom_append cur [] h

/-- A run of separators ends the token in hand. -/
theorem tokenizeFrom_seps {seps : Text} (cur : Token) (rest : Line) (h : ∀ c ∈ seps, isSep c = true)
    (hne : seps ≠ []) : tokenizeFrom cur (seps ++ rest) = flushToken cur ++ tokenizeFrom [] rest := by
  induction seps generalizing cur with
  | nil => exact absurd rfl hne
  | cons c cs ih =>
    rw [List.cons_append, tokenizeFrom_sep _ _ (h c (by simp))]
    by_cases hc : cs = []
    · simp [hc]
    · rw [ih _ (fun d hd => h d (by simp [hd])) hc]; simp

/-- A run of separators cuts a line into two that are tokenized apart. -/
theorem tokenizeFrom_split (a b : Line) (cur : Token) {seps : Text} (h : ∀ c ∈ seps, isSep c = true)
    (hne : seps ≠ []) : tokenizeFrom cur (a ++ seps ++ b) = tokenizeFrom cur a ++ tokenizeFrom [] b := by
  induction a generalizing cur with
  | nil => simp [tokenizeFrom_seps cur b h hne]
  | cons c cs ih =>
    simp only [List.cons_append, tokenizeFrom]
    split
    · rw [ih]; simp
    · rw [ih]

/-! ## Canonical tokens hold no separator -/

theorem regToken_isSep (c : RegCode) : ∀ d ∈ regToken c, isSep d = false := by revert c; decide

theorem numeralOf_isSep :
    ((List.range 256).all fun n => numeralOf n != [] && (numeralOf n).all fun d => !isSep d) = true := by
  decide +kernel

theorem immToken_isSep (v : BitVec 8) : immToken v ≠ [] ∧ ∀ d ∈ immToken v, isSep d = false := by
  have h := List.all_eq_true.1 numeralOf_isSep v.toNat (List.mem_range.2 v.isLt)
  simpa [immToken] using h

theorem key_isSep (i : Instr) : ∀ d ∈ i.key, isSep d = false := by
  have h : ∀ k ∈ [keyAdd, keyMult, keyLw, keySw, keyHalt, keyAddi, keyAddui, keyBz, keyBp, keyPut],
      ∀ d ∈ k, isSep d = false := by decide
  apply h
  cases i <;> simp [Instr.key]

theorem key_ne_nil (i : Instr) : i.key ≠ [] := by
  cases i <;> simp [Instr.key, keyAdd, keyMult, keyLw, keySw, keyHalt, keyAddi, keyAddui, keyBz, keyBp, keyPut, text]

/-- The line of an instruction whose operands the Tokenizer can produce is cut into its mnemonic and its operands. -/
theorem tokenize_lineOf (i : Instr) (h : ∀ t ∈ i.ops, t ≠ [] ∧ ∀ c ∈ t, isSep c = false) :
    tokenize (lineOf i) = i.key :: i.ops := by
  have hops : ∀ ops : List Token, (∀ t ∈ ops, t ≠ [] ∧ ∀ c ∈ t, isSep c = false) →
      tokenizeFrom [] (operandText ops) = ops := by
    intro ops
    induction ops with
    | nil => intro _; rfl
    | cons t rest ih =>
      intro h
      have ht := h t (by simp)
      cases rest with
      | nil => rw [operandText, tokenizeFrom_token _ ht.2]; simp [flushToken_of_ne_nil ht.1]
      | cons u rest =>
        rw [operandText, tokenizeFrom_split _ _ _ (by decide) (by simp), ih fun x hx => h x (by simp [hx])]
        · rw [tokenizeFrom_token _ ht.2]; simp [flushToken_of_ne_nil ht.1]
        · simp
  unfold lineOf tokenize
  split
  · rename_i h0
    rw [h0, tokenizeFrom_token _ (key_isSep i)]
    simp [flushToken_of_ne_nil (key_ne_nil i)]
  · rw [tokenizeFrom_split _ _ _ (by decide) (by simp), hops _ h, tokenizeFrom_token _ (key_isSep i)]
    simp [flushToken_of_ne_nil (key_ne_nil i)]

/-! ## Immediates -/

/-- A token has no immediate exactly when it is no literal or its value is outside 0 to 255 (R90). -/
theorem immediateOf_eq_none (t : Token) :
    immediateOf t = none ↔ ∀ v, readInteger t = some v → v < 0 ∨ 255 < v := by
  unfold immediateOf immMax
  cases h : readInteger t with
  | none => simp
  | some v => by_cases hv : 0 ≤ v ∧ v ≤ 255 <;> simp [hv]; omega

/-- A token's immediate is the 8-bit vector of its value (R55, R90). -/
theorem immediateOf_eq_some (t : Token) (b : BitVec 8) :
    immediateOf t = some b ↔ readInteger t = some (b.toNat : Int) := by
  unfold immediateOf immMax
  cases h : readInteger t with
  | none => simp
  | some v =>
    by_cases hv : 0 ≤ v ∧ v ≤ 255
    · obtain ⟨n, rfl⟩ := Int.eq_ofNat_of_zero_le hv.1
      simp only [hv, and_self, if_true, Option.some.injEq, Int.toNat_natCast, Nat.cast_inj]
      constructor
      · rintro rfl; simp; omega
      · intro hb; apply BitVec.eq_of_toNat_eq; simp; omega
    · have := b.isLt
      simp only [hv, if_false, reduceCtorEq, Option.some.injEq, false_iff]
      omega

/-! ## Reading a line -/

/-- The instruction that an entry of the mnemonic table builds has the entry's key as its mnemonic and keeps the
operands it is given (R81, R84). -/
theorem mnemonicTable_builds : ∀ entry ∈ mnemonicTable, ∀ ops : List Token,
    (entry.2 ops).key = entry.1 ∧ (entry.2 ops).ops = ops := by
  simp [mnemonicTable, Instr.key, Instr.ops]

/-- Whatever reading a line answers: the instruction of its mnemonic, or the absent mnemonic (R81 to R84). -/
theorem parseLine_cases (line : Line) :
    (∃ i : Instr, parseLine line = .ok i ∧ i.key = mnemonicOf (tokenize line) ∧ i.ops = (tokenize line).tail) ∨
    (parseLine line = .error (mnemonicOf (tokenize line)) ∧ isetLookup (mnemonicOf (tokenize line)) = none) := by
  unfold parseLine
  generalize (tokenize line).tail = ops
  generalize mnemonicOf (tokenize line) = m
  cases h : tableLookup mnemonicTable m with
  | some build =>
    exact .inl ⟨build ops, rfl, mnemonicTable_builds _ (mem_of_tableLookup h) ops⟩
  | none =>
    right
    refine ⟨rfl, ?_⟩
    rw [isetLookup, tableLookup_eq_none]
    rw [tableLookup_eq_none] at h
    exact h

end Sys2Proof
end

