-- ==== Sys2Proof/Laws/Ops.lean ====
section
/-! SUPPORT. Laws/Ops.lean: one lemma per shared operation: everything it can answer. -/

namespace Sys2Proof.Machine

/-- A register operand is a token of `RTAB`, or the error names it and its field. -/
theorem regOperand_ok {t : Token} {f : ErrorField} {c : RegCode} :
    regOperand t f = .ok c ↔ rtabLookup t = some c := by
  unfold regOperand
  split <;> simp_all

theorem regOperand_error {t : Token} {f : ErrorField} {e : EncodeError} :
    regOperand t f = .error e ↔ rtabLookup t = none ∧ e = ⟨.unknownRegister, f, t⟩ := by
  cases h : rtabLookup t <;> simp [regOperand, h, eq_comm]

/-- A literal operand is in range, or the error names it. -/
theorem immOperand_ok {t : Token} {v : BitVec 8} : immOperand t = .ok v ↔ immediateOf t = some v := by
  unfold immOperand
  split <;> simp_all

theorem immOperand_error {t : Token} {e : EncodeError} :
    immOperand t = .error e ↔ immediateOf t = none ∧ e = ⟨.malformedImmediate, .operand2, t⟩ := by
  cases h : immediateOf t <;> simp [immOperand, h, eq_comm]

/-- Whatever two-register resolution answers. -/
theorem twoRegisters_cases (ops : List Token) :
    (ops.length ≠ 2 ∧ twoRegisters ops = .error countError) ∨
    (∃ a b, ops = [a, b] ∧ rtabLookup a = none ∧
      twoRegisters ops = .error ⟨.unknownRegister, .operand1, a⟩) ∨
    (∃ a b rs, ops = [a, b] ∧ rtabLookup a = some rs ∧ rtabLookup b = none ∧
      twoRegisters ops = .error ⟨.unknownRegister, .operand2, b⟩) ∨
    (∃ a b rs rt, ops = [a, b] ∧ rtabLookup a = some rs ∧ rtabLookup b = some rt ∧
      twoRegisters ops = .ok (rs, rt)) := by
  match ops with
  | [] => simp [twoRegisters]
  | [a] => simp [twoRegisters]
  | [a, b] =>
    cases ha : rtabLookup a <;> cases hb : rtabLookup b <;> simp [twoRegisters, regOperand, ha, hb]
  | a :: b :: c :: rest => simp [twoRegisters]

/-- Whatever operand resolution without operands answers. -/
theorem noOperands_cases (ops : List Token) :
    (ops ≠ [] ∧ noOperands ops = .error countError) ∨ (ops = [] ∧ noOperands ops = .ok (0#3, 0#3)) := by
  cases ops <;> simp [noOperands]

/-- Whatever register and literal resolution answers. -/
theorem registerAndLiteral_cases (ops : List Token) :
    (ops.length ≠ 2 ∧ registerAndLiteral ops = .error countError) ∨
    (∃ a b, ops = [a, b] ∧ rtabLookup a = none ∧
      registerAndLiteral ops = .error ⟨.unknownRegister, .operand1, a⟩) ∨
    (∃ a b rs, ops = [a, b] ∧ rtabLookup a = some rs ∧ immediateOf b = none ∧
      registerAndLiteral ops = .error ⟨.malformedImmediate, .operand2, b⟩) ∨
    (∃ a b rs imm, ops = [a, b] ∧ rtabLookup a = some rs ∧ immediateOf b = some imm ∧
      registerAndLiteral ops = .ok (rs, imm)) := by
  match ops with
  | [] => simp [registerAndLiteral]
  | [a] => simp [registerAndLiteral]
  | [a, b] =>
    cases ha : rtabLookup a <;> cases hb : immediateOf b <;>
      simp [registerAndLiteral, regOperand, immOperand, ha, hb]
  | a :: b :: c :: rest => simp [registerAndLiteral]

/-- Whatever one-register resolution answers. -/
theorem oneRegister_cases (ops : List Token) :
    (ops.length ≠ 1 ∧ oneRegister ops = .error countError) ∨
    (∃ a, ops = [a] ∧ rtabLookup a = none ∧ oneRegister ops = .error ⟨.unknownRegister, .operand1, a⟩) ∨
    (∃ a rs, ops = [a] ∧ rtabLookup a = some rs ∧ oneRegister ops = .ok (rs, 0#8)) := by
  match ops with
  | [] => simp [oneRegister]
  | [a] => cases ha : rtabLookup a <;> simp [oneRegister, regOperand, ha]
  | a :: b :: rest => simp [oneRegister]

/-- Everything `respond` can do: it delivers the `Ok` of a word, or it takes an error. -/
theorem respond_next {s t : State} {x : Except EncodeError Word} (h : s.respond x = .next t) :
    (∃ w, x = .ok w ∧ t = s.deliver (okResult w)) ∨ (∃ e, x = .error e ∧ t = s.takeError e) := by
  cases x with
  | ok w => exact .inl ⟨w, rfl, by simpa [State.respond] using h.symm⟩
  | error e => exact .inr ⟨e, rfl, by simpa [State.respond] using h.symm⟩

@[simp] theorem respond_ok (s : State) (w : Word) : s.respond (.ok w) = .next (s.deliver (okResult w)) := rfl

@[simp] theorem respond_error (s : State) (e : EncodeError) : s.respond (.error e) = .next (s.takeError e) := rfl

/-- Everything the host wrapper can do in one step: in which phase it does nothing, and what it does in the others. -/
theorem hostMove_cases (s : State) :
    (hostMove s = s ∧ (s.phase = .idle ∨ s.phase = .finished ∨ (∃ n e, s.phase = .failed n e) ∨
      (s.phase = .waiting ∧ s.response = none))) ∨
    (s.phase = .reading ∧ s.input = [] ∧ hostMove s = { s with phase := .finished }) ∨
    (∃ line rest, s.phase = .reading ∧ s.input = line :: rest ∧ isSkipped line = true ∧
      hostMove s = s.skipLine rest) ∨
    (∃ line rest, s.phase = .reading ∧ s.input = line :: rest ∧ isSkipped line = false ∧
      hostMove s = s.handOver line rest) ∨
    (∃ w bin hex, s.phase = .waiting ∧ s.response = some (.ok w bin hex) ∧ hostMove s = s.writeWord hex) ∨
    (∃ e, s.phase = .waiting ∧ s.response = some (.err e) ∧ hostMove s = s.abortRun e) := by
  cases hp : s.phase with
  | idle => exact .inl ⟨by simp [hostMove, hp], .inl rfl⟩
  | finished => exact .inl ⟨by simp [hostMove, hp], .inr (.inl rfl)⟩
  | failed n e => exact .inl ⟨by simp [hostMove, hp], .inr (.inr (.inl ⟨n, e, rfl⟩))⟩
  | reading =>
    right
    cases hi : s.input with
    | nil => left; simp [hostMove, readInput, hp, hi]
    | cons line rest =>
      right
      cases hs : isSkipped line
      · right; left; exact ⟨line, rest, rfl, rfl, hs, by simp [hostMove, readInput, hp, hi, hs]⟩
      · left; exact ⟨line, rest, rfl, rfl, hs, by simp [hostMove, readInput, hp, hi, hs]⟩
  | waiting =>
    cases hr : s.response with
    | none => exact .inl ⟨by simp [hostMove, collectResponse, hp, hr], .inr (.inr (.inr ⟨rfl, rfl⟩))⟩
    | some r =>
      cases r with
      | ok w bin hex => simp [hostMove, collectResponse, hp, hr]
      | err e => simp [hostMove, collectResponse, hp, hr]

/-- A step of the host wrapper leaves no response readable (R15). -/
@[simp] theorem driverStep_response (s : State) : (driverStep s).response = none := rfl

/-! ## Sampling -/

@[simp] theorem sampleWord_ok {s : State} {w : Word} {b h : Text} (hr : s.response = some (.ok w b h)) :
    sampleWord s = .ok w := by simp [sampleWord, hr]

@[simp] theorem sampleHex_ok {s : State} {w : Word} {b h : Text} (hr : s.response = some (.ok w b h)) :
    sampleHex s = .ok h := by simp [sampleHex, hr]

end Sys2Proof.Machine
end

