-- ==== Sys2Proof/Laws/PerInstr.lean ====
section
/-! SUPPORT. Laws/PerInstr.lean: statements made per instruction. Family EncodesIffWellFormed: the encoder has a word
for an instruction exactly when R62 calls it well formed. -/

namespace Sys2Proof.Laws.EncodesIffWellFormed

/-- The encoder answers exactly on the well-formed instructions (R62). -/
def Statement (i : Instr) : Prop := (encode i).isSome = i.wf

theorem regs (pattern : Word) (ops : List Token) : (encodeRegs pattern ops).isSome = wfRegs ops := by
  match ops with
  | [] => rfl
  | [_] => rfl
  | [a, b] => cases ha : rtabLookup a <;> cases hb : rtabLookup b <;> simp [encodeRegs, wfRegs, isRegister, ha, hb]
  | _ :: _ :: _ :: _ => rfl

theorem imm (pattern : Word) (ops : List Token) : (encodeImm pattern ops).isSome = wfImm ops := by
  match ops with
  | [] => rfl
  | [_] => rfl
  | [a, b] =>
    cases ha : rtabLookup a <;> cases hb : immediateOf b <;>
      simp [encodeImm, wfImm, isRegister, isImmediate, ha, hb]
  | _ :: _ :: _ :: _ => rfl

theorem add (ops : List Token) : Statement (.add ops) := regs _ ops
theorem mult (ops : List Token) : Statement (.mult ops) := regs _ ops
theorem lw (ops : List Token) : Statement (.lw ops) := regs _ ops
theorem sw (ops : List Token) : Statement (.sw ops) := regs _ ops
theorem halt (ops : List Token) : Statement (.halt ops) := by cases ops <;> rfl
theorem addi (ops : List Token) : Statement (.addi ops) := imm _ ops
theorem addui (ops : List Token) : Statement (.addui ops) := imm _ ops
theorem bz (ops : List Token) : Statement (.bz ops) := imm _ ops
theorem bp (ops : List Token) : Statement (.bp ops) := imm _ ops
theorem put (ops : List Token) : Statement (.put ops) := by
  match ops with
  | [] => rfl
  | [a] => simp [Statement, encode, encodeReg, Instr.wf, wfReg, isRegister]
  | _ :: _ :: _ => rfl

end Sys2Proof.Laws.EncodesIffWellFormed
end

