-- ==== Sys2Proof/Laws/Words.lean ====
section
/-! SUPPORT. Laws/Words.lean: the small lemmas of the word layer: fields of a word, a row's pattern with its fields
filled in, and the packers. -/

namespace Sys2Proof

/-! ## Fields -/

/-- Concatenation as a number: the left operand holds the more significant positions (R6). -/
theorem toNat_append_eq {n m : Nat} (x : BitVec n) (y : BitVec m) :
    (x ++ y).toNat = x.toNat * 2 ^ m + y.toNat := by
  rw [BitVec.toNat_append, ← Nat.shiftLeft_add_eq_or_of_lt y.isLt, Nat.shiftLeft_eq]

/-- A word is its constant bits under an R-type mask with its two register fields filled in. -/
theorem placeRegs_of_word (w : Word) : placeRegs (w &&& 0xF03F#16) (rsField w) (rtField w) = w := by
  ext i hi
  simp only [placeRegs, rsField, rtField]
  interval_cases i <;> simp

/-- A word is its constant bits under an I-type mask with its rs and imm fields filled in. -/
theorem placeImm_of_word (w : Word) : placeImm (w &&& 0xF100#16) (rsField w) (immField w) = w := by
  ext i hi
  simp only [placeImm, rsField, immField]
  interval_cases i <;> simp

/-- A word is its constant bits under the mask of `put` with its rs field filled in. -/
theorem placeImm_of_word_zero (w : Word) : placeImm (w &&& 0xF1FF#16) (rsField w) 0#8 = w := by
  ext i hi
  simp only [placeImm, rsField]
  interval_cases i <;> simp

/-- Filling in the register fields changes no constant bit. -/
theorem placeRegs_and_mask (p : Word) (rs rt : RegCode) :
    placeRegs p rs rt &&& 0xF03F#16 = p &&& 0xF03F#16 := by
  ext i hi
  simp only [placeRegs]
  interval_cases i <;> simp

/-- Filling in the rs and imm fields changes no constant bit. -/
theorem placeImm_and_mask (p : Word) (rs : RegCode) (imm : BitVec 8) :
    placeImm p rs imm &&& 0xF100#16 = p &&& 0xF100#16 := by
  ext i hi
  simp only [placeImm]
  interval_cases i <;> simp

theorem placeImm_zero_and_mask (p : Word) (rs : RegCode) :
    placeImm p rs 0#8 &&& 0xF1FF#16 = p &&& 0xF1FF#16 := by
  ext i hi
  simp only [placeImm]
  interval_cases i <;> simp

/-- The register fields of a filled-in row are the codes filled in. -/
theorem rsField_placeRegs (p : Word) (rs rt : RegCode) : rsField (placeRegs (p &&& 0xF03F#16) rs rt) = rs := by
  ext i hi
  simp only [placeRegs, rsField]
  interval_cases i <;> simp

theorem rtField_placeRegs (p : Word) (rs rt : RegCode) : rtField (placeRegs (p &&& 0xF03F#16) rs rt) = rt := by
  ext i hi
  simp only [placeRegs, rtField]
  interval_cases i <;> simp

theorem rsField_placeImm (p : Word) (rs : RegCode) (imm : BitVec 8) :
    rsField (placeImm (p &&& 0xF100#16) rs imm) = rs := by
  ext i hi
  simp only [placeImm, rsField]
  interval_cases i <;> simp

theorem immField_placeImm (p : Word) (rs : RegCode) (imm : BitVec 8) :
    immField (placeImm (p &&& 0xF100#16) rs imm) = imm := by
  ext i hi
  simp only [placeImm, immField]
  interval_cases i <;> simp

/-! ## Rows -/

/-- A row fixes every bit of its mask. -/
theorem getLsbD_of_and_mask {w m p : Word} (h : w &&& m = p) (i : Nat) (hm : m.getLsbD i = true) :
    w.getLsbD i = p.getLsbD i := by
  subst h; simp [hm]

/-- `decode` answers with any row that covers the word: no two rows of the table do. -/
theorem decode_of_covers (w : Word) (r : WordRow) (hr : r ∈ wordRows) (h : w &&& r.mask = r.pattern) :
    decode w = .ok (r.build w) := by
  have key : wordRows.Pairwise fun p q =>
      ∃ i ∈ List.range 16, p.mask.getLsbD i = true ∧ q.mask.getLsbD i = true ∧
        p.pattern.getLsbD i ≠ q.pattern.getLsbD i := by
    simp only [wordRows]; decide
  have hf : wordRows.find? (fun r => r.covers w) = some r := by
    generalize wordRows = l at *
    induction l with
    | nil => cases hr
    | cons a l ih =>
      rw [List.pairwise_cons] at key
      rw [List.find?_cons]
      rcases List.mem_cons.1 hr with rfl | hm
      · simp [WordRow.covers, h]
      · obtain ⟨i, _, ha, hb, hc⟩ := key.1 r hm
        have hno : ¬ (w &&& a.mask = a.pattern) := fun h' =>
          hc ((getLsbD_of_and_mask h' i ha).symm.trans (getLsbD_of_and_mask h i hb))
        simp only [WordRow.covers, beq_eq_false_iff_ne.2 hno]
        exact ih hm key.2
  unfold decode
  rw [hf]

/-- An instruction that `decode` answers with is that of a row covering the word. -/
theorem decode_ok {w : Word} {i : Instr} (h : decode w = .ok i) :
    ∃ r ∈ wordRows, w &&& r.mask = r.pattern ∧ i = r.build w := by
  unfold decode at h
  split at h
  · rename_i r hr
    cases h
    exact ⟨r, List.mem_of_find?_eq_some hr, by simpa [WordRow.covers] using List.find?_some hr, rfl⟩
  · split at h <;> cases h

end Sys2Proof

namespace Sys2Proof.Machine

/-- The bits of an R-type word, from the last-written field up (R51). -/
theorem getLsbD_packR (op : Opcode) (rs rt : RegCode) (subop : BitVec 3) (i : Nat) :
    (packR op rs rt subop).getLsbD i =
      if i < 1 then (subop.extractLsb' 0 1).getLsbD i
      else if i < 5 then false
      else if i < 6 then false
      else if i < 9 then rt.getLsbD (i - 6)
      else if i < 12 then rs.getLsbD (i - 9)
      else op.getLsbD (i - 12) := by
  have h : (packR op rs rt subop).getLsbD i = BitVec.getLsbD (w := 4 + 3 + 3 + 1 + 4 + 1)
      (op ++ rs ++ rt ++ 0b0#1 ++ 0b0000#4 ++ subop.extractLsb' 0 1) i := rfl
  rw [h]
  simp only [BitVec.getLsbD_append]
  repeat' split
  all_goals first | omega | simp [Nat.sub_sub]

/-- The bits of an I-type word, from the last-written field up (R52). -/
theorem getLsbD_packI (op : Opcode) (rs : RegCode) (u : BitVec 1) (imm : BitVec 8) (i : Nat) :
    (packI op rs u imm).getLsbD i =
      if i < 8 then imm.getLsbD i
      else if i < 9 then u.getLsbD (i - 8)
      else if i < 12 then rs.getLsbD (i - 9)
      else op.getLsbD (i - 12) := by
  have h : (packI op rs u imm).getLsbD i = BitVec.getLsbD (w := 4 + 3 + 1 + 8) (op ++ rs ++ u ++ imm) i := rfl
  rw [h]
  simp only [BitVec.getLsbD_append]
  repeat' split
  all_goals first | omega | simp [Nat.sub_sub]

/-- The R-type packer fills the register fields into the opcode and the sub-opcode bit. -/
theorem packR_eq_placeRegs (op : Opcode) (rs rt : RegCode) (subop : BitVec 3) :
    packR op rs rt subop = placeRegs (packR op 0#3 0#3 subop) rs rt := by
  apply BitVec.eq_of_getLsbD_eq
  intro i hi
  rw [placeRegs, BitVec.getLsbD_or, BitVec.getLsbD_or, getLsbD_packR, getLsbD_packR]
  interval_cases i <;> simp

/-- The I-type packer fills the rs and imm fields into the opcode and the unsigned flag. -/
theorem packI_eq_placeImm (op : Opcode) (rs : RegCode) (u : BitVec 1) (imm : BitVec 8) :
    packI op rs u imm = placeImm (packI op 0#3 u 0#8) rs imm := by
  apply BitVec.eq_of_getLsbD_eq
  intro i hi
  rw [placeImm, BitVec.getLsbD_or, BitVec.getLsbD_or, getLsbD_packI, getLsbD_packI]
  interval_cases i <;> simp

end Sys2Proof.Machine
end

