-- ==== Sys2Proof/Tests/Slice0.lean ====
section
/-! SUPPORT. Tests/Slice0.lean: the model's own tests. Expected values are those of spec/95_test_vectors.md (X, T and P
ids), words written out from spec/30_encoding.md R57, and the corner cases of the rules; then one witness for the
hypotheses of each statement. -/

namespace Sys2Proof.Tests

open Sys2Proof Sys2Proof.Machine

/-- The response to a line handed to the machine after reset. -/
def respond (line : Line) : Option Result :=
  match step (State.reset.placeRequest line) with
  | .next t => t.response
  | .fault _ => none
  | .refused _ => none

/-- The hex rendering of the response to a line. -/
def hexOf (line : Line) : Option Text :=
  match respond line with
  | some (.ok _ _ hex) => some hex
  | _ => none

/-- The error of the response to a line. -/
def errOf (line : Line) : Option EncodeError :=
  match respond line with
  | some (.err e) => some e
  | _ => none

/-- The instruction a word reads as. -/
def wordInstr (w : Word) : Option Instr :=
  match decode w with
  | .ok i => some i
  | .error _ => none

/-- Why a word does not read. -/
def wordRefusal (w : Word) : Option WordRefusal :=
  match decode w with
  | .ok _ => none
  | .error r => some r

/-! ## WellFormed refuses (R62) -/

theorem test_wf_too_few_registers : (Instr.add [text "$r1"]).wf = false := by decide
theorem test_wf_too_many_registers : (Instr.sw [text "$r1", text "$r2", text "$r3"]).wf = false := by decide
theorem test_wf_first_not_a_register : (Instr.mult [text "$r8", text "$r2"]).wf = false := by decide
theorem test_wf_second_not_a_register : (Instr.lw [text "$r1", text "5"]).wf = false := by decide
theorem test_wf_halt_with_operand : (Instr.halt [text "$r0"]).wf = false := by decide
theorem test_wf_immediate_count : (Instr.addi [text "$r1"]).wf = false := by decide
theorem test_wf_immediate_register : (Instr.bz [text "5", text "5"]).wf = false := by decide
theorem test_wf_immediate_not_a_literal : (Instr.addui [text "$r1", text "0x10"]).wf = false := by decide
theorem test_wf_immediate_out_of_range : (Instr.bp [text "$r1", text "256"]).wf = false := by decide
theorem test_wf_put_count : (Instr.put []).wf = false := by decide
theorem test_wf_put_register : (Instr.put [text "r2"]).wf = false := by decide
theorem test_wf_accepts : (Instr.addi [text "$r7", text "+255"]).wf = true := by decide
theorem test_canonical_refuses_leading_zero : (Instr.addi [text "$r1", text "007"]).isCanonical = false := by decide

/-! ## Decoding: words written out from R57 -/

/-- T4 -/
theorem test_decode_add : wordInstr 0b0000010001000000#16 = some (.add [text "$r2", text "$r1"]) := by decide
/-- T5 -/
theorem test_decode_mult : wordInstr 0b0010011100000000#16 = some (.mult [text "$r3", text "$r4"]) := by decide
/-- T12 -/
theorem test_decode_lw : wordInstr 0b0110101101000000#16 = some (.lw [text "$r5", text "$r5"]) := by decide
/-- T17 -/
theorem test_decode_sw : wordInstr 0b0110110000000001#16 = some (.sw [text "$r6", text "$r0"]) := by decide
/-- X2 -/
theorem test_decode_halt : wordInstr 0b0111000000000000#16 = some (.halt []) := by decide
/-- T22 -/
theorem test_decode_addi : wordInstr 0b0001100010000000#16 = some (.addi [text "$r4", text "128"]) := by decide
/-- T30 -/
theorem test_decode_addui : wordInstr 0b0001101100000001#16 = some (.addui [text "$r5", text "1"]) := by decide
/-- T31 -/
theorem test_decode_bz : wordInstr 0b1000001000000100#16 = some (.bz [text "$r1", text "4"]) := by decide
/-- T34 -/
theorem test_decode_bp : wordInstr 0b1010010000001010#16 = some (.bp [text "$r2", text "10"]) := by decide
/-- X5 -/
theorem test_decode_put : wordInstr 0b1111010000000000#16 = some (.put [text "$r2"]) := by decide
/-- R58: an unassigned opcode -/
theorem test_decode_unassigned : wordRefusal 0x3000#16 = some (.unassignedOpcode 0b0011#4) := by decide
/-- R58: `word[5:1] ≠ 0` -/
theorem test_decode_shamt : wordRefusal 0x0002#16 = some .constantFieldDiffers := by decide
/-- R58: opcode `0000` with `word[0] = 1` -/
theorem test_decode_add_subop : wordRefusal 0x0001#16 = some .constantFieldDiffers := by decide
/-- R58: opcode `0111` other than 0x7000 -/
theorem test_decode_halt_rs : wordRefusal 0x7200#16 = some .constantFieldDiffers := by decide
/-- R58: opcode `1000` with `word[8] = 1` -/
theorem test_decode_bz_unsigned : wordRefusal 0x8100#16 = some .constantFieldDiffers := by decide
/-- R58: opcode `1111` with `word[8:0] ≠ 0` -/
theorem test_decode_put_imm : wordRefusal 0xF001#16 = some .constantFieldDiffers := by decide
theorem test_decodeTableWord_wide : decodeTableWord 16 0x17FF = some (.addui [text "$r3", text "255"]) := by decide
theorem test_decodeTableWord_extra_bits : decodeTableWord 32 0x10000 = none := by decide
/-- T24 in the encoder -/
theorem test_encode_long_literal :
    encode (.addi [text "$r1", text "00000000000000000000255"]) = some 0x12FF#16 := by decide
/-- The first instruction after reset is the one `withFetchWord` places (X4). -/
theorem test_withFetchWord :
    (match step (State.reset.withFetchWord 16 0x17FF) with
      | .next t => t.response
      | _ => none) = some (okResult 0x17FF#16) := by decide

/-! ## One step per line: `Ok` (95_test_vectors.md) -/

/-- X1, with its binary string -/
theorem test_add : respond (text "add $r1, $r2") = some (.ok 0x0280#16 (text "0000001010000000") (text "0280")) := by
  decide
/-- T1: the all-zero word is a valid result. -/
theorem test_add_zero : hexOf (text "add $r0, $r0") = some (text "0000") := by decide
/-- T5 -/
theorem test_mult : hexOf (text "mult $r3, $r4") = some (text "2700") := by decide
/-- T12 -/
theorem test_lw : hexOf (text "lw $r5, $r5") = some (text "6B40") := by decide
/-- T17 -/
theorem test_sw : hexOf (text "sw $r6, $r0") = some (text "6C01") := by decide
/-- X2 -/
theorem test_halt : hexOf (text "halt") = some (text "7000") := by decide
/-- X3 -/
theorem test_addi : hexOf (text "addi $r0, 5") = some (text "1005") := by decide
/-- T27 -/
theorem test_addi_minus_zero : hexOf (text "addi $r1, -0") = some (text "1200") := by decide
/-- X4 -/
theorem test_addui : hexOf (text "addui $r3, 255") = some (text "17FF") := by decide
/-- T31 -/
theorem test_bz : hexOf (text "bz $r1, 4") = some (text "8204") := by decide
/-- T34 -/
theorem test_bp : hexOf (text "bp $r2, 10") = some (text "A40A") := by decide
/-- T43 -/
theorem test_put : hexOf (text "put $r7") = some (text "FE00") := by decide
/-- T25 -/
theorem test_plus_sign : hexOf (text "addi $r1, +7") = some (text "1207") := by decide

/-! ## Tokenizer -/

/-- T46 -/
theorem test_tokenize_runs : tokenize (text "  add   $r1 ,, $r2 ") = [text "add", text "$r1", text "$r2"] := by decide
/-- T47: CR and LF -/
theorem test_tokenize_crlf : tokenize (text "add $r1,$r2\r\n") = [text "add", text "$r1", text "$r2"] := by decide
/-- T56 -/
theorem test_tokenize_commas : tokenize (text ",,,") = [] := by decide

/-! ## Errors -/

/-- T52 -/
theorem test_upper_case_mnemonic :
    errOf (text "ADD $r1, $r2") = some ⟨.unknownInstruction, .mnemonic, text "ADD"⟩ := by decide
/-- T56 -/
theorem test_no_token : errOf (text ",,,") = some ⟨.unknownInstruction, .mnemonic, []⟩ := by decide
/-- T59: the first of three faults -/
theorem test_first_fault_wins : errOf (text "foo $r9, x") = some ⟨.unknownInstruction, .mnemonic, text "foo"⟩ := by
  decide
/-- T60 -/
theorem test_register_out_of_range : errOf (text "add $r1, $r8") = some ⟨.unknownRegister, .operand2, text "$r8"⟩ := by
  decide
/-- T68 -/
theorem test_operand1_first : errOf (text "add $r9, $r8") = some ⟨.unknownRegister, .operand1, text "$r9"⟩ := by decide
/-- T69 -/
theorem test_register_before_immediate : errOf (text "addi $r9, x") = some ⟨.unknownRegister, .operand1, text "$r9"⟩ := by
  decide
/-- T76 -/
theorem test_two_signs : errOf (text "addi $r1, --5") = some ⟨.malformedImmediate, .operand2, text "--5"⟩ := by decide
/-- T79 -/
theorem test_too_large : errOf (text "addi $r1, 256") = some ⟨.malformedImmediate, .operand2, text "256"⟩ := by decide
/-- T81 -/
theorem test_negative : errOf (text "addi $r1, -1") = some ⟨.malformedImmediate, .operand2, text "-1"⟩ := by decide
/-- T83 -/
theorem test_huge : errOf (text "addi $r1, 1000000000000000000000") =
    some ⟨.malformedImmediate, .operand2, text "1000000000000000000000"⟩ := by decide
/-- T86: the count before the register -/
theorem test_count_before_register : errOf (text "add $r9") = some countError := by decide
/-- T87 -/
theorem test_halt_operand : errOf (text "halt $r0") = some countError := by decide
/-- T90 -/
theorem test_put_surplus : errOf (text "put $r1, 0") = some countError := by decide
/-- T92: a trailing comment -/
theorem test_trailing_comment : errOf (text "add $r1, $r2 # sum") = some countError := by decide

/-! ## Delivery -/

/-- The word is on the ports while its response is being delivered, and not readable after that (R15, R16). -/
theorem test_word_not_readable_after_delivery :
    (match runSteps 1 (State.reset.placeRequest (text "halt")) with
      | .next t => sampleWord t = .ok 0x7000#16
      | _ => False) ∧
    match runSteps 2 (State.reset.placeRequest (text "halt")) with
    | .next t => sampleWord t = .error .noResponse
    | _ => False := ⟨rfl, rfl⟩

/-! ## The host wrapper and the parameters -/

/-- P4: abort on the first error -/
theorem test_assemble_aborts :
    assemble [text "addi $r1, 1", text "put $r1", text "add $r1, $r8", text "halt"] =
      .failed 2 ⟨.unknownRegister, .operand2, text "$r8"⟩ := by decide
/-- P5: comments and blanks only -/
theorem test_assemble_comments :
    assemble [text "# only comments", [], text "   ", text "#", text "# end"] = .image [text "v2.0 raw"] := by decide
/-- P7: mixed separators, the CR left on each line -/
theorem test_assemble_separators :
    assemble (splitLines (text "\tlw\t$r6 $r7\r\nsw,$r6,$r7\r\n  put   $r6  \r\nhalt\r\n")) =
      .image [text "v2.0 raw", text "6DC0", text "6DC1", text "FC00", text "7000"] := by decide
/-- T93: an indented comment is not skipped. -/
theorem test_indented_comment : isSkipped (text "  # indented comment") = false := by decide
/-- T97: a comma is not whitespace. -/
theorem test_commas_not_skipped : isSkipped (text ",,,") = false := by decide
/-- R4 -/
theorem test_parameters :
    rtab.length = Config.nRegs ∧ iset.length = Config.nMnemonics ∧
    (iset.all fun e => decide (e.2.operandCount ≤ Config.maxOperands)) = true ∧
    (renderHex 0x00FF#16).length = Config.hexDigits ∧ (renderBin 0x00FF#16).length = Config.wordBits := by decide

/-! ## Witnesses: concrete values that meet each statement's hypotheses -/

/-- A state with one pending request. -/
def pending (line : Line) : State := State.reset.placeRequest line

/-- A state of the host wrapper with no pending request. -/
def host (phase : Phase) (response : Option Result) (input : List Line) : State :=
  { State.reset with phase := phase, response := response, input := input, out := [header] }

theorem witness_StepRunsTheDecodedInstruction :
    (pending (text "halt")).requests = text "halt" :: [] ∧ parseLine (text "halt") = .ok (.halt []) := ⟨rfl, rfl⟩

theorem witness_LineReadsAsItsMnemonicsInstruction :
    (tokenize (text "put $r2")).head? = some (Instr.put [text "$r2"]).key ∧
    (Instr.put [text "$r2"]).ops = (tokenize (text "put $r2")).tail := by decide

theorem witness_AbsentMnemonicIsAnError :
    (pending (text "sub $r1")).requests = text "sub $r1" :: [] ∧
    isetLookup ((tokenize (text "sub $r1")).headD []) = none := by decide

theorem witness_LineWithoutTokenIsAnError :
    (pending (text ", ,")).requests = text ", ," :: [] ∧ (∀ c ∈ text ", ,", isSep c = true) := by decide

theorem witness_DecodeOfEncodeIsTheInstruction : (Instr.addi [text "$r7", text "255"]).isCanonical = true := by decide

theorem witness_DecodeOfEncodeIsTheCanonicalText : (Instr.addi [text "$r1", text "+007"]).wf = true := by decide

theorem witness_EncodeOfDecodeIsTheWord : decode 0xFE00#16 = .ok (.put [text "$r7"]) := rfl

theorem witness_EncodingTheCanonicalLineGivesTheWord : decode 0x1000#16 = .ok (.addi [text "$r0", text "0"]) := rfl

theorem witness_WordDeterminesTheInstruction :
    (Instr.addi [text "$r1", text "5"]).wf = true ∧ (Instr.addi [text "$r1", text "005"]).wf = true ∧
    encode (.addi [text "$r1", text "5"]) = some 0x1205#16 ∧
    encode (.addi [text "$r1", text "005"]) = some 0x1205#16 := by decide

theorem witness_RowsAreDisjoint :
    (keySw, 0x6001#16, 0xF03F#16) ∈ rowTable ∧ 0x6281#16 &&& 0xF03F#16 = 0x6001#16 := by decide

theorem witness_RowCoversExactlyItsMnemonicsWords :
    (keyHalt, 0x7000#16, 0xFFFF#16) ∈ rowTable ∧ (tokenize (text "halt")).head? = some keyHalt ∧
    encodeLine (text "halt") = .ok 0x7000#16 (text "0111000000000000") (text "7000") ∧
    0x7000#16 &&& 0xFFFF#16 = 0x7000#16 := by decide

/-- One word for each clause of the last part. -/
theorem witness_EmittedWordsAreExactly8457 :
    encodeLine (text "sw $r7, $r7") = okResult 0x6FC1#16 ∧ opcodeField 0x6FC1#16 ∈ [0b0000#4, 0b0010#4, 0b0110#4] ∧
    encodeLine (text "mult $r7, $r7") = okResult 0x2FC0#16 ∧ opcodeField 0x2FC0#16 ∈ [0b0000#4, 0b0010#4] ∧
    encodeLine (text "halt") = okResult 0x7000#16 ∧ opcodeField 0x7000#16 = 0b0111#4 ∧
    encodeLine (text "bp $r7, 255") = okResult 0xAEFF#16 ∧ opcodeField 0xAEFF#16 ∈ [0b1000#4, 0b1010#4] ∧
    encodeLine (text "put $r7") = okResult 0xFE00#16 ∧ opcodeField 0xFE00#16 = 0b1111#4 := by decide

/-- An operand list whose outcome is `Ok`, for each of the four (R120 to R123). -/
theorem witness_RegisterPairRules :
    ruleTwoRegisters 0 [text "$r1", text "$r2"] = okResult 0x0280#16 ∧
    ruleTwoRegisters 8192 [text "$r7", text "$r7"] = okResult 0x2FC0#16 ∧
    ruleTwoRegisters 24576 [text "$r0", text "$r0"] = okResult 0x6000#16 ∧
    ruleTwoRegisters 24577 [text "$r4", text "$r4"] = okResult 0x6901#16 := by decide

theorem witness_HaltFollowsItsRule : encodeLine (text " halt ,") = okResult 0x7000#16 := by decide

/-- An operand list whose outcome is `Ok`, for each of the four (R130 to R133). -/
theorem witness_LiteralRules :
    ruleRegisterLiteral 4096 [text "$r7", text "255"] = okResult 0x1EFF#16 ∧
    ruleRegisterLiteral 4352 [text "$r0", text "0"] = okResult 0x1100#16 ∧
    ruleRegisterLiteral 32768 [text "$r1", text "4"] = okResult 0x8204#16 ∧
    ruleRegisterLiteral 40960 [text "$r2", text "10"] = okResult 0xA40A#16 := by decide

theorem witness_PutFollowsItsRule : ruleOneRegister 61440 [text "$r7"] = okResult 0xFE00#16 := by decide

theorem witness_LiteralInstructionsComplete_low :
    readInteger (text "-0") = some ((0 : Nat) : Int) ∧ (0 : Nat) ≤ 255 := by decide

theorem witness_LiteralInstructionsComplete_high :
    readInteger (text "+0255") = some ((255 : Nat) : Int) ∧ (255 : Nat) ≤ 255 := by decide

theorem witness_ExactlyWellFormedInstructionsComplete :
    (Instr.put [text "$r0"]).wf = true ∧ (Instr.put [text "$r8"]).wf = false := by decide

theorem witness_InstructionFrame :
    ∃ t, exec (.halt []) (pending (text "halt")) = .next t := ⟨_, rfl⟩

/-- The further clauses of R122, R123, R131 and R133. -/
theorem witness_NeighbouringMnemonics :
    encodeTokens keyLw [text "$r7", text "$r7"] = .ok 0x6FC0#16 (text "0110111111000000") (text "6FC0") ∧
    encodeTokens keyAddi [text "$r7", text "255"] = .ok 0x1EFF#16 (text "0001111011111111") (text "1EFF") ∧
    encodeTokens keyBz [text "$r0", text "0"] = .ok 0x8000#16 (text "1000000000000000") (text "8000") ∧
    isetLookup keySw = some ⟨0b0110#4, .rTwo 0b001#3⟩ ∧
    encodeTokens keySw [text "$r7", text "$r7"] = .ok 0x6FC1#16 (text "0110111111000001") (text "6FC1") ∧
    isetLookup keyAddui = some ⟨0b0001#4, .iTwo⟩ ∧
    encodeTokens keyAddui [text "$r7", text "255"] = .ok 0x1FFF#16 (text "0001111111111111") (text "1FFF") := by decide

theorem witness_StepAnswersWithTheWholeOperation : (pending (text "put")).requests = text "put" :: [] := rfl

theorem witness_EveryStepAnswers : (pending []).requests ≠ [] := by decide

theorem witness_ResponseDependsOnTheLineOnly :
    ∃ t t', (pending (text "halt")).requests = text "halt" :: [] ∧
      ((pending (text "halt")).placeRequest []).requests = text "halt" :: [[]] ∧
      step (pending (text "halt")) = .next t ∧ step ((pending (text "halt")).placeRequest []) = .next t' :=
  ⟨_, _, rfl, rfl, rfl, rfl⟩

theorem witness_NextRequestIsUnaffected :
    ((pending (text "foo")).placeRequest (text "halt")).requests = text "foo" :: text "halt" :: [] := rfl

/-- One operand list for each clause. -/
theorem witness_FirstErrorInTheFixedOrder :
    isetLookup (text "foo") = none ∧
    isetLookup keyAdd = some ⟨0b0000#4, .rTwo 0b000#3⟩ ∧ [text "$r9"].length ≠ 2 ∧
    registerIndex (text "$r9") = none ∧ registerIndex (text "$r7") ≠ none ∧ registerIndex (text "$r8") = none ∧
    isetLookup keyAddi = some ⟨0b0001#4, .iTwo⟩ ∧ readInteger (text "256") = some 256 ∧
    readInteger (text "-1") = some (-1) ∧ readInteger (text "x") = none := by decide

theorem witness_ErrorCodesOnThePorts :
    ∃ t, (pending []).requests = [] :: [] ∧ step (pending []) = .next t := ⟨_, rfl, rfl⟩

theorem witness_ErrorGivesNoSubstituteWord :
    (pending (text "put")).requests = text "put" :: [] ∧ encodeLine (text "put") = .err countError := by decide

theorem witness_PortsShowTheResponse :
    State.reset.response = none ∧ (host .waiting (some (okResult 0#16)) []).response = some (okResult 0#16) ∧
    (host .waiting (some (.err countError)) []).response = some (.err countError) := by decide

theorem witness_EveryStepKeepsTheInvariant :
    ∃ t, (State.reset.startRun [text "halt"]).Inv ∧ step (State.reset.startRun [text "halt"]) = .next t := by
  refine ⟨_, ⟨?_, Or.inr (by decide), by decide⟩, rfl⟩
  intro r h
  cases h

theorem witness_TokensAreNonEmptyAndSeparatorFree : text "halt" ∈ tokenize (text " halt ,") := by decide

theorem witness_LineGrammarIsCutIntoItsTokens :
    (∀ c ∈ text " ", isSep c = true) ∧
    (∀ p ∈ [(text "add", text " "), (text "$r1", text ",, ")],
      p.1 ≠ [] ∧ (∀ c ∈ p.1, isSep c = false) ∧ p.2 ≠ [] ∧ ∀ c ∈ p.2, isSep c = true) ∧
    ([text "$r2"].length ≤ 1 ∧ ∀ t ∈ [text "$r2"], t ≠ [] ∧ ∀ c ∈ t, isSep c = false) := by decide

theorem witness_SeparatorsAreInterchangeable :
    isSep 0x2C#8 = true ∧ (∀ d ∈ text ", \t", isSep d = true) ∧ text ", \t" ≠ [] := by decide

theorem witness_LiteralGrammar : readInteger (text "-05") = some (-5) := by decide

theorem witness_UnsignedBitIsSetExactlyForAddui :
    isetLookup keyPut = some ⟨0b1111#4, .iOne⟩ ∧ (⟨0b1111#4, .iOne⟩ : InstructionSpec).format = .iType ∧
    encodeTokens keyPut [text "$r0"] = .ok 0xF000#16 (text "1111000000000000") (text "F000") := by decide

theorem witness_RunEndsInTheAssembledOutcome : State.reset.requests = [] := rfl

theorem witness_ImageHoldsOneWordPerAcceptedLine :
    assemble [text "# c", text "halt"] = .image [header, text "7000"] := by decide

theorem witness_RunFailsAtTheFirstBadLine : assemble [text "halt", text "put"] = .failed 1 countError := by decide

/-- A line for each clause. -/
theorem witness_HostFiltersBlankAndCommentLines :
    (host .reading none [text " \t"]).requests = [] ∧ (host .reading none [text " \t"]).phase = .reading ∧
    (∀ c ∈ text " \t", c ∈ [0x20#8, 0x09#8, 0x0A#8, 0x0B#8, 0x0C#8, 0x0D#8]) ∧
    (text "#").head? = some 0x23#8 ∧
    ¬((∀ c ∈ text ",", c ∈ [0x20#8, 0x09#8, 0x0A#8, 0x0B#8, 0x0C#8, 0x0D#8]) ∨
      (text ",").head? = some 0x23#8) := by decide

/-- A response for each clause. -/
theorem witness_HostWritesTheWordOrAborts :
    (host .waiting (some (okResult 0#16)) []).requests = [] ∧
    (host .waiting (some (okResult 0#16)) []).phase = .waiting ∧
    (host .waiting (some (okResult 0#16)) []).response = some (okResult 0#16) ∧
    (host .waiting (some (.err countError)) []).response = some (.err countError) := by decide

theorem witness_LineTerminatorsDoNotMatter : ∀ l ∈ [text "halt\r", []], 0x0A#8 ∉ l := by decide

theorem witness_OutputFileIsTheImageLineByLine :
    (assemble [text "halt"]).outputFile = some (text "v2.0 raw\n7000\n") := by decide

end Sys2Proof.Tests
end

section
/-! SUPPORT. Proofs of the family 10_state: the response of every step, the ports, and the two constant tables. -/

namespace Sys2Proof

/-! ## The constant tables -/

/-- A table with pairwise different keys answers for a key exactly the value that stands beside it. -/
theorem tableLookup_eq_some_iff_mem {α : Type} {tab : List (Token × α)} (hnodup : (tab.map Prod.fst).Nodup)
    (t : Token) (v : α) : tableLookup tab t = some v ↔ (t, v) ∈ tab := by
  refine ⟨mem_of_tableLookup, ?_⟩
  induction tab with
  | nil => simp
  | cons p rest ih =>
    obtain ⟨k, w⟩ := p
    rw [List.map_cons, List.nodup_cons] at hnodup
    obtain ⟨hk, hrest⟩ := hnodup
    intro hmem
    rw [tableLookup_cons]
    rcases List.mem_cons.1 hmem with heq | hmem
    · cases heq
      exact if_pos rfl
    · have hne : k ≠ t := by rintro rfl; exact hk (List.mem_map.2 ⟨_, hmem, rfl⟩)
      rw [if_neg hne]
      exact ih hrest hmem

/-- `ISET` answers for a mnemonic exactly the entry listed with it (R11). -/
theorem isetLookup_eq_some_iff_mem (m : Token) (e : InstructionSpec) :
    isetLookup m = some e ↔ (m, e) ∈ iset :=
  tableLookup_eq_some_iff_mem (by decide) m e

/-- The row of R11 that an entry of `ISET` stands for: its key, opcode, stored sub-opcode, format and operand count. -/
def isetRow (entry : Token × InstructionSpec) : Token × Opcode × Option (BitVec 3) × Format × Nat :=
  (entry.1, entry.2.opcode, entry.2.subop, entry.2.format, entry.2.operandCount)

/-- A row is the row of an entry of `ISET` exactly when the lookup of its key finds an entry with its fields. -/
theorem mem_map_isetRow (m : Token) (op : Opcode) (sub : Option (BitVec 3)) (f : Format) (n : Nat) :
    (m, op, sub, f, n) ∈ iset.map isetRow ↔
      ∃ e, isetLookup m = some e ∧ e.opcode = op ∧ e.subop = sub ∧ e.format = f ∧ e.operandCount = n := by
  constructor
  · intro hmem
    obtain ⟨⟨k, e⟩, hentry, hrow⟩ := List.mem_map.1 hmem
    cases hrow
    exact ⟨e, (isetLookup_eq_some_iff_mem k e).2 hentry, rfl, rfl, rfl, rfl⟩
  · rintro ⟨e, hlookup, rfl, rfl, rfl, rfl⟩
    exact List.mem_map.2 ⟨(m, e), (isetLookup_eq_some_iff_mem m e).1 hlookup, rfl⟩

/-- The register token of a code is the only token with that code (R14). -/
theorem rtabLookup_eq_some_iff (t : Token) (c : RegCode) : rtabLookup t = some c ↔ t = regToken c :=
  ⟨rtabLookup_some, by rintro rfl; exact rtabLookup_regToken c⟩

end Sys2Proof

namespace Sys2Proof.Machine

/-- The character of a digit's value is the digit. -/
theorem digitChar_sub (c : Byte) (h : 0x30 ≤ c.toNat) : digitChar (c.toNat - 0x30) = c := by
  rw [digitChar, Nat.add_sub_cancel' h, BitVec.ofNat_toNat, BitVec.setWidth_eq]

/-- A token with a register index is the register token of that index (R13). -/
theorem eq_regToken_of_registerIndex {t : Token} {n : Nat} (h : registerIndex t = some n) :
    t = regToken (BitVec.ofNat 3 n) := by
  match t with
  | [a, b, c] =>
    simp only [registerIndex, Option.ite_none_right_eq_some, Option.some.injEq] at h
    obtain ⟨⟨rfl, rfl, hlo, hhi⟩, rfl⟩ := h
    have hcode : (BitVec.ofNat 3 (c.toNat - 0x30)).toNat = c.toNat - 0x30 := by
      rw [BitVec.toNat_ofNat]; exact Nat.mod_eq_of_lt (by omega)
    rw [regToken, hcode, digitChar_sub c hlo]
  | [] | [_] | [_, _] | _ :: _ :: _ :: _ :: _ => simp [registerIndex] at h

theorem registerIndex_regToken (c : RegCode) : registerIndex (regToken c) = some c.toNat := by
  revert c; decide

/-- `RTAB` read at any token gives the token's index as a 3-bit code (R13, R14). -/
theorem rtabLookup_eq_registerIndex (t : Token) :
    rtabLookup t = (registerIndex t).map (BitVec.ofNat 3) := by
  cases hidx : registerIndex t with
  | some n => exact (rtabLookup_eq_some_iff _ _).2 (eq_regToken_of_registerIndex hidx)
  | none =>
    rw [Option.map_none, Option.eq_none_iff_forall_ne_some]
    intro c hc
    rw [rtabLookup_some hc, registerIndex_regToken] at hidx
    cases hidx

/-! ## What a step answers -/

/-- The response for the word, or the error, that an operation ends with (R100, R102). -/
def resultOf : Except EncodeError Word → Result
  | .ok w => okResult w
  | .error e => .err e

theorem respond_eq_deliver (s : State) (x : Except EncodeError Word) :
    s.respond x = .next (s.deliver (resultOf x)) := by
  cases x <;> rfl

theorem encodeTokens_of_absent {m : Token} (h : isetLookup m = none) (ops : List Token) :
    encodeTokens m ops = .err (unknownMnemonic m) := by
  simp only [encodeTokens, h]

theorem encodeTokens_of_entry {m : Token} {e : InstructionSpec} (h : isetLookup m = some e)
    (ops : List Token) : encodeTokens m ops = resultOf (encodeEntry m e ops) := by
  simp only [encodeTokens, h]
  cases encodeEntry m e ops <;> rfl

/-- Each arm of `exec` is the response to the table-driven encoding of the instruction's own entry. -/
theorem exec_eq_respond_entry (i : Instr) :
    ∃ e, isetLookup i.key = some e ∧ ∀ s : State, exec i s = s.respond (encodeEntry i.key e i.ops) := by
  cases i with
  | add ops | mult ops | lw ops | sw ops | halt ops | addi ops | addui ops | bz ops | bp ops | put ops =>
    exact ⟨_, rfl, fun _ => rfl⟩

/-- An instruction delivers the result of the table-driven operation on its mnemonic and operands (R101). -/
theorem exec_eq_deliver (i : Instr) (s : State) :
    exec i s = .next (s.deliver (encodeTokens i.key i.ops)) := by
  obtain ⟨e, hentry, hexec⟩ := exec_eq_respond_entry i
  rw [hexec, respond_eq_deliver, encodeTokens_of_entry hentry]

/-- With no request pending, the host wrapper moves. -/
theorem step_of_no_request {s : State} (h : s.requests = []) : step s = .next (driverStep s) := by
  simp only [step, h]

/-- With a request pending, the step delivers the result of the whole operation on the oldest line (R100). -/
theorem step_of_request {s : State} {line : Line} {rest : List Line} (h : s.requests = line :: rest) :
    step s = .next (s.deliver (encodeLine line)) := by
  rcases parseLine_cases line with ⟨i, hparse, hkey, hops⟩ | ⟨hparse, habsent⟩
  · simp only [step, h, hparse]
    rw [exec_eq_deliver, hkey, hops, encodeLine]
  · simp only [step, h, hparse]
    rw [encodeLine, encodeTokens_of_absent habsent]
    rfl

/-- A run with a request pending first gives the response to the oldest line (R16). -/
theorem responsesIn_succ_of_request {s : State} {line : Line} {rest : List Line}
    (h : s.requests = line :: rest) (k : Nat) :
    responsesIn (k + 1) s = encodeLine line :: responsesIn k (s.deliver (encodeLine line)) := by
  simp only [responsesIn, step_of_request h, h, deliver_response]

/-- The next steps, one for each line of a queue, give the lines' results in the order of the queue (R16, R36). -/
theorem responsesIn_of_requests (lines : List Line) (s : State) (h : s.requests = lines) :
    responsesIn lines.length s = lines.map encodeLine := by
  induction lines generalizing s with
  | nil => rfl
  | cons line rest ih =>
    have hrest : (s.deliver (encodeLine line)).requests = rest := by rw [deliver_requests, h, List.tail_cons]
    rw [List.length_cons, responsesIn_succ_of_request h, ih _ hrest, List.map_cons]

/-! ## The output ports -/

theorem samples_of_no_response {s : State} (h : s.response = none) :
    sampleOk s = .error .noResponse ∧ sampleWord s = .error .noResponse ∧
    sampleHex s = .error .noResponse ∧ sampleErrCode s = .error .noResponse ∧
    sampleErrField s = .error .noResponse := by
  simp [sampleOk, sampleWord, sampleHex, sampleErrCode, sampleErrField, h]

theorem samples_of_ok {s : State} {w : Word} {bin hex : Text} (h : s.response = some (.ok w bin hex)) :
    sampleOk s = .ok 1#1 ∧ sampleWord s = .ok w ∧ sampleHex s = .ok hex ∧
    sampleErrCode s = .ok 0#3 ∧ sampleErrField s = .error .portNotMeaningful := by
  simp [sampleOk, sampleErrCode, sampleErrField, sampleWord_ok h, sampleHex_ok h, h]

theorem samples_of_err {s : State} {e : EncodeError} (h : s.response = some (.err e)) :
    sampleOk s = .ok 0#1 ∧ sampleWord s = .error .portNotMeaningful ∧
    sampleHex s = .error .portNotMeaningful ∧ sampleErrCode s = .ok e.kind.code ∧
    sampleErrField s = .ok e.field.code := by
  simp [sampleOk, sampleWord, sampleHex, sampleErrCode, sampleErrField, h]

/-! ## The obligations of the family -/

/-- Settles O28: an instruction's next state is the delivery of a result, which touches requests and response only. -/
theorem instructionFrame : Obligations.InstructionFrame := by
  intro i s t hexec
  rw [exec_eq_deliver] at hexec
  cases hexec
  simp

/-- Settles O30, by whether a request is pending. -/
theorem everyStepAnswers : Obligations.EveryStepAnswers := by
  intro s
  cases hreq : s.requests with
  | nil => exact ⟨driverStep s, step_of_no_request hreq, by simp, by simp⟩
  | cons line rest => exact ⟨s.deliver (encodeLine line), step_of_request hreq, by simp [hreq], by simp⟩

/-- Settles O31: both responses are the result of the whole operation on the same line. -/
theorem responseDependsOnTheLineOnly : Obligations.ResponseDependsOnTheLineOnly := by
  intro s s' t t' line rest rest' hreq hreq' hstep hstep'
  rw [step_of_request hreq] at hstep
  rw [step_of_request hreq'] at hstep'
  cases hstep
  cases hstep'
  rw [deliver_response, deliver_response]

/-- Settles O32, by induction on the queue. -/
theorem responsesComeInRequestOrder : Obligations.ResponsesComeInRequestOrder :=
  fun s => responsesIn_of_requests s.requests s rfl

/-- Settles O44. -/
theorem registerTableIsTheIndexMap : Obligations.RegisterTableIsTheIndexMap :=
  ⟨rtabLookup_eq_registerIndex, fun c => ⟨regToken c, rtabLookup_regToken c, fun _ => rtabLookup_some⟩, rfl⟩

/-- Settles O37. -/
theorem portsShowTheResponse : Obligations.PortsShowTheResponse :=
  fun _ => ⟨samples_of_no_response, fun _ _ _ => samples_of_ok, fun _ => samples_of_err⟩

/-- Settles O38: at reset there is no response, and no run of the host wrapper has been started. -/
theorem invariantHoldsAtReset : Obligations.InvariantHoldsAtReset :=
  ⟨by simp, .inl reset_phase, rfl⟩

/-- Settles O45: the ten rows are, by computation, those of the entries of `ISET`. -/
theorem instructionTableHasExactlyTenEntries : Obligations.InstructionTableHasExactlyTenEntries :=
  fun m op sub f n => (mem_map_isetRow m op sub f n).symm

/-- Settles O59. -/
theorem resetShowsNoResponse : Obligations.ResetShowsNoResponse :=
  ⟨reset_requests, reset_phase, samples_of_no_response reset_response⟩

end Sys2Proof.Machine
end

section
/-! SUPPORT. What a result can be: the words an `Ok` carries, the pairs an `Err` carries, and the hex rendering that
the host writes (R58, R99, R103, R145). -/

namespace Sys2Proof.Machine

/-! ## The words of a table entry -/

/-- The constant bits of a table entry's words (the mask column of R57). -/
def entryMask : EntryForm → Word
  | .rTwo _ => 0xF03F#16
  | .rNone _ => 0xFFFF#16
  | .iTwo => 0xF100#16
  | .iOne => 0xF1FF#16

/-- The word of a table entry with register 0 and immediate 0. -/
def entryBase (m : Token) (e : InstructionSpec) : Word :=
  match e.form with
  | .rTwo subop => packR e.opcode 0#3 0#3 subop
  | .rNone subop => packR e.opcode 0#3 0#3 subop
  | .iTwo => packI e.opcode 0#3 (unsignedFlag m) 0#8
  | .iOne => packI e.opcode 0#3 (unsignedFlag m) 0#8

/-- Each entry of `ISET` has its row in R57. -/
theorem entry_mem_rowTable : ∀ entry ∈ iset,
    (entry.1, entryBase entry.1 entry.2 &&& entryMask entry.2.form, entryMask entry.2.form) ∈ rowTable := by
  decide

/-- Everything `encodeTwoRegs` can answer: a word that differs from the one with register 0 in the register fields
only, or a legal error. -/
theorem encodeTwoRegs_cases (op : Opcode) (subop : BitVec 3) (ops : List Token) :
    (∃ w, encodeTwoRegs op subop ops = .ok w ∧
      w &&& 0xF03F#16 = packR op 0#3 0#3 subop &&& 0xF03F#16) ∨
    (∃ e, encodeTwoRegs op subop ops = .error e ∧ e.legal = true) := by
  unfold encodeTwoRegs
  rcases twoRegisters_cases ops with ⟨-, h⟩ | ⟨a, b, -, -, h⟩ | ⟨a, b, rs, -, -, -, h⟩ | ⟨a, b, rs, rt, -, -, -, h⟩
  · exact .inr ⟨_, by rw [h], rfl⟩
  · exact .inr ⟨_, by rw [h], rfl⟩
  · exact .inr ⟨_, by rw [h], rfl⟩
  · exact .inl ⟨_, by rw [h], by rw [packR_eq_placeRegs, placeRegs_and_mask]⟩

/-- Everything `encodeNoRegs` can answer: its one word, or a legal error. -/
theorem encodeNoRegs_cases (op : Opcode) (subop : BitVec 3) (ops : List Token) :
    encodeNoRegs op subop ops = .ok (packR op 0#3 0#3 subop) ∨
    (∃ e, encodeNoRegs op subop ops = .error e ∧ e.legal = true) := by
  unfold encodeNoRegs
  rcases noOperands_cases ops with ⟨-, h⟩ | ⟨-, h⟩
  · exact .inr ⟨_, by rw [h], rfl⟩
  · exact .inl (by rw [h])

/-- Everything `encodeRegImm` can answer: a word that differs from the one with register 0 and immediate 0 in these
two fields only, or a legal error. -/
theorem encodeRegImm_cases (op : Opcode) (u : BitVec 1) (ops : List Token) :
    (∃ w, encodeRegImm op u ops = .ok w ∧ w &&& 0xF100#16 = packI op 0#3 u 0#8 &&& 0xF100#16) ∨
    (∃ e, encodeRegImm op u ops = .error e ∧ e.legal = true) := by
  unfold encodeRegImm
  rcases registerAndLiteral_cases ops with
    ⟨-, h⟩ | ⟨a, b, -, -, h⟩ | ⟨a, b, rs, -, -, -, h⟩ | ⟨a, b, rs, imm, -, -, -, h⟩
  · exact .inr ⟨_, by rw [h], rfl⟩
  · exact .inr ⟨_, by rw [h], rfl⟩
  · exact .inr ⟨_, by rw [h], rfl⟩
  · exact .inl ⟨_, by rw [h], by rw [packI_eq_placeImm, placeImm_and_mask]⟩

/-- Everything `encodeOneReg` can answer: a word that differs from the one with register 0 in the register field
only, or a legal error. -/
theorem encodeOneReg_cases (op : Opcode) (u : BitVec 1) (ops : List Token) :
    (∃ w, encodeOneReg op u ops = .ok w ∧ w &&& 0xF1FF#16 = packI op 0#3 u 0#8 &&& 0xF1FF#16) ∨
    (∃ e, encodeOneReg op u ops = .error e ∧ e.legal = true) := by
  unfold encodeOneReg
  rcases oneRegister_cases ops with ⟨-, h⟩ | ⟨a, -, -, h⟩ | ⟨a, rs, -, -, h⟩
  · exact .inr ⟨_, by rw [h], rfl⟩
  · exact .inr ⟨_, by rw [h], rfl⟩
  · exact .inl ⟨_, by rw [h], by rw [packI_eq_placeImm, placeImm_zero_and_mask]⟩

/-- Everything the encoding of a table entry can answer: a word with the entry's constant bits, or a legal error. -/
theorem encodeEntry_cases (m : Token) (e : InstructionSpec) (ops : List Token) :
    (∃ w, encodeEntry m e ops = .ok w ∧ w &&& entryMask e.form = entryBase m e &&& entryMask e.form) ∨
    (∃ err, encodeEntry m e ops = .error err ∧ err.legal = true) := by
  obtain ⟨op, form⟩ := e
  cases form with
  | rTwo subop => exact encodeTwoRegs_cases op subop ops
  | rNone subop => exact (encodeNoRegs_cases op subop ops).imp_left fun h => ⟨_, h, rfl⟩
  | iTwo => exact encodeRegImm_cases op (unsignedFlag m) ops
  | iOne => exact encodeOneReg_cases op (unsignedFlag m) ops

/-! ## Legal results -/

/-- A word with the constant bits of an entry of `ISET` is covered by that entry's row (R57, R58). -/
theorem producible_of_entry {m : Token} {e : InstructionSpec} {w : Word} (hentry : isetLookup m = some e)
    (hw : w &&& entryMask e.form = entryBase m e &&& entryMask e.form) : producible w = true :=
  List.any_eq_true.2 ⟨_, entry_mem_rowTable _ ((isetLookup_eq_some_iff_mem m e).1 hentry), beq_iff_eq.2 hw⟩

theorem okResult_legal {w : Word} (h : producible w = true) : (okResult w).legal = true := by
  simp [okResult, Result.legal, h]

/-- An `Ok` that is legal carries a producible word with its own renderings. -/
theorem eq_okResult_of_legal {w : Word} {bin hex : Text} (h : (Result.ok w bin hex).legal = true) :
    producible w = true ∧ bin = renderBin w ∧ hex = renderHex w := by
  simpa [Result.legal, and_assoc] using h

/-- Every result of the whole operation is legal: a producible word with its renderings, or an error with a pair of
R145 (R58, R145). -/
theorem encodeTokens_legal (m : Token) (ops : List Token) : (encodeTokens m ops).legal = true := by
  cases hentry : isetLookup m with
  | none => rw [encodeTokens_of_absent hentry]; rfl
  | some e =>
    rw [encodeTokens_of_entry hentry]
    rcases encodeEntry_cases m e ops with ⟨w, hok, hw⟩ | ⟨err, herr, hlegal⟩
    · rw [hok]; exact okResult_legal (producible_of_entry hentry hw)
    · rw [herr]; exact hlegal

theorem encodeLine_legal (line : Line) : (encodeLine line).legal = true :=
  encodeTokens_legal _ _

/-! ## The hex rendering as an output line -/

theorem hexDigit_isUpperHex (n : BitVec 4) : isUpperHex (hexDigit n) = true := by
  revert n; decide

theorem hexDigitValue_hexDigit (n : BitVec 4) : hexDigitValue (hexDigit n) = n.toNat := by
  revert n; decide

/-- The hex rendering consists of upper-case hexadecimal digits (R99, R103). -/
theorem renderHex_all_isUpperHex (w : Word) : (renderHex w).all isUpperHex = true := by
  simp [renderHex, hexDigit_isUpperHex]

/-- The four digits of the hex rendering spell the word's value (R99). -/
theorem hexValue_renderHex (w : Word) : hexValue (renderHex w) = w.toNat := by
  have hw := w.isLt
  simp only [hexValue, renderHex, List.foldl_cons, List.foldl_nil, hexDigitValue_hexDigit,
    BitVec.extractLsb'_toNat, Nat.shiftRight_eq_div_pow]
  omega

/-- The hex rendering of a producible word is a legal output line (R43, R103). -/
theorem renderHex_isWordLine {w : Word} (h : producible w = true) : isWordLine (renderHex w) = true := by
  rw [isWordLine, renderHex_all_isUpperHex, hexValue_renderHex, BitVec.ofNat_toNat, BitVec.setWidth_eq, h]
  rfl

end Sys2Proof.Machine
end

section
/-! SUPPORT. Proofs of the family 20_memory: the host wrapper around the block, its invariant, its runs, and its input
and output texts. -/

namespace Sys2Proof.Machine

/-! ## The parts of the invariant -/

/-- Outside `waiting` a phase's legality rests on the host's input and line index alone. -/
theorem phaseLegal_congr (s t : State) (hphase : t.phase = s.phase) (hinput : t.input = s.input)
    (hindex : t.lineIndex = s.lineIndex) (hwait : s.phase ≠ .waiting) : t.phaseLegal = s.phaseLegal := by
  unfold State.phaseLegal
  rw [hphase, hinput, hindex]
  cases hp : s.phase with
  | waiting => exact absurd hp hwait
  | idle | reading | finished | failed n e => rfl

theorem phaseLegal_waiting {s : State} (h : s.phase = .waiting) :
    s.phaseLegal = true ↔ s.requests.length = 1 ∨ (s.requests = [] ∧ s.response ≠ none) := by
  simp [State.phaseLegal, h, Option.isSome_iff_ne_none]

theorem isImage_iff (out : List Text) :
    isImage out = true ↔ ∃ ws, out = header :: ws ∧ ∀ t ∈ ws, isWordLine t = true := by
  cases out <;> simp [isImage]

/-- An image so far stays one when a word line is written (R43). -/
theorem isImage_append {out : List Text} {hex : Text} (hout : isImage out = true) (hhex : isWordLine hex = true) :
    isImage (out ++ [hex]) = true := by
  obtain ⟨ws, rfl, hws⟩ := (isImage_iff out).1 hout
  refine (isImage_iff _).2 ⟨ws ++ [hex], rfl, fun t ht => ?_⟩
  rcases List.mem_append.1 ht with ht | ht
  · exact hws t ht
  · rw [List.mem_singleton.1 ht]; exact hhex

/-- Writing a line after an image so far advances the word index by one (R35). -/
theorem wordIndex_writeWord {s : State} (hout : isImage s.out = true) (hex : Text) :
    (s.writeWord hex).wordIndex = s.wordIndex + 1 := by
  obtain ⟨ws, hws, -⟩ := (isImage_iff s.out).1 hout
  simp [State.wordIndex, hws]

/-! ## The invariant along a step -/

/-- Answering a request with a legal result keeps the invariant: a host that waited for it now has its response. -/
theorem inv_deliver {s : State} {r : Result} (hinv : s.Inv) (hreq : s.requests ≠ []) (hr : r.legal = true) :
    (s.deliver r).Inv := by
  obtain ⟨-, hout, hphase⟩ := hinv
  refine ⟨by simpa using hr, hout, ?_⟩
  by_cases hwait : s.phase = .waiting
  · have hone : s.requests.length = 1 := by simpa [hreq] using (phaseLegal_waiting hwait).1 hphase
    exact (phaseLegal_waiting (s := s.deliver r) hwait).2 (.inr ⟨by simp [← List.length_eq_zero_iff, hone], by simp⟩)
  · exact (phaseLegal_congr s (s.deliver r) rfl rfl rfl hwait).trans hphase

/-- A move of the host wrapper keeps the invariant, by what the move can be (R40 to R44). -/
theorem inv_driverStep {s : State} (hinv : s.Inv) (hreq : s.requests = []) : (driverStep s).Inv := by
  obtain ⟨hresp, hout, hphase⟩ := hinv
  have hstarted (hp : s.phase ≠ .idle) : isImage s.out = true ∧ s.wordIndex ≤ s.lineIndex := hout.resolve_left hp
  refine ⟨by simp, ?_⟩
  rcases hostMove_cases s with ⟨hmove, hstay⟩ | ⟨hread, hinput, hmove⟩ | ⟨line, rest, hread, -, -, hmove⟩ |
    ⟨line, rest, hread, -, -, hmove⟩ | ⟨w, bin, hex, hwait, hr, hmove⟩ | ⟨e, hwait, hr, hmove⟩ <;>
    rw [driverStep, hmove]
  · have hwait : s.phase ≠ .waiting := by
      intro hp
      have hnone : s.response = none := by simpa [hp] using hstay
      simp [phaseLegal_waiting hp, hreq, hnone] at hphase
    exact ⟨hout, (phaseLegal_congr s s.retire rfl rfl rfl hwait).trans hphase⟩
  · exact ⟨.inr (hstarted (by simp [hread])), by simp [State.phaseLegal, hinput]⟩
  · obtain ⟨himage, hindex⟩ := hstarted (by simp [hread])
    exact ⟨.inr ⟨himage, Nat.le_succ_of_le hindex⟩, by simp [State.phaseLegal, hread]⟩
  · exact ⟨.inr (hstarted (by simp [hread])), (phaseLegal_waiting rfl).2 (.inl (by simp [hreq]))⟩
  · obtain ⟨himage, hindex⟩ := hstarted (by simp [hwait])
    obtain ⟨hprod, -, rfl⟩ := eq_okResult_of_legal (hresp _ hr)
    have hnext : (s.writeWord (renderHex w)).wordIndex ≤ s.lineIndex + 1 := by
      rw [wordIndex_writeWord himage]; exact Nat.succ_le_succ hindex
    exact ⟨.inr ⟨isImage_append himage (renderHex_isWordLine hprod), hnext⟩, by simp [State.phaseLegal]⟩
  · exact ⟨.inr (hstarted (by simp [hwait])), by simpa [State.phaseLegal, Result.legal] using hresp _ hr⟩

/-! ## The moves of the host wrapper as steps -/

theorem step_reading_end {s : State} (hreq : s.requests = []) (hphase : s.phase = .reading) (hinput : s.input = []) :
    step s = .next ({ s with phase := .finished } : State).retire := by
  simp [step_of_no_request hreq, driverStep, hostMove, readInput, hphase, hinput]

theorem step_reading_skipped {s : State} {line : Line} {rest : List Line} (hreq : s.requests = [])
    (hphase : s.phase = .reading) (hinput : s.input = line :: rest) (hskip : isSkipped line = true) :
    step s = .next (s.skipLine rest).retire := by
  simp [step_of_no_request hreq, driverStep, hostMove, readInput, hphase, hinput, hskip]

theorem step_reading_handOver {s : State} {line : Line} {rest : List Line} (hreq : s.requests = [])
    (hphase : s.phase = .reading) (hinput : s.input = line :: rest) (hskip : isSkipped line = false) :
    step s = .next (s.handOver line rest).retire := by
  simp [step_of_no_request hreq, driverStep, hostMove, readInput, hphase, hinput, hskip]

theorem step_waiting_ok {s : State} {w : Word} {bin hex : Text} (hreq : s.requests = [])
    (hphase : s.phase = .waiting) (hresp : s.response = some (.ok w bin hex)) :
    step s = .next (s.writeWord hex).retire := by
  simp [step_of_no_request hreq, driverStep, hostMove, collectResponse, hphase, hresp]

theorem step_waiting_err {s : State} {e : EncodeError} (hreq : s.requests = []) (hphase : s.phase = .waiting)
    (hresp : s.response = some (.err e)) : step s = .next (s.abortRun e).retire := by
  simp [step_of_no_request hreq, driverStep, hostMove, collectResponse, hphase, hresp]

/-- A failed run stands still (R44). -/
theorem step_failed {s : State} {n : Nat} {e : EncodeError} (hreq : s.requests = []) (hphase : s.phase = .failed n e)
    (hresp : s.response = none) : step s = .next s := by
  have hmove : hostMove s = s := by simp [hostMove, hphase]
  rw [step_of_no_request hreq, driverStep, hmove, State.retire, ← hresp]

/-! ## Runs -/

theorem runSteps_succ_of_step {s t : State} (h : step s = .next t) (k : Nat) :
    runSteps (k + 1) s = runSteps k t := by
  simp only [runSteps, h]

/-- A state that steps to itself is where every run from it ends. -/
theorem runSteps_of_step_self {s : State} (h : step s = .next s) (k : Nat) : runSteps k s = .next s := by
  induction k with
  | zero => rfl
  | succ k ih => rw [runSteps_succ_of_step h, ih]

/-- A line that is not skipped is handed over and answered in two steps (R40, R100). -/
theorem runSteps_handOver {s : State} {line : Line} {rest : List Line} (hreq : s.requests = [])
    (hphase : s.phase = .reading) (hinput : s.input = line :: rest) (hskip : isSkipped line = false) (k : Nat) :
    runSteps (k + 2) s = runSteps k ((s.handOver line rest).retire.deliver (encodeLine line)) := by
  rw [runSteps_succ_of_step (step_reading_handOver hreq hphase hinput hskip),
    runSteps_succ_of_step (step_of_request (line := line) (rest := []) (by simp [hreq]))]

/-- A line that encodes takes three steps, the handing over, the answer and the taking of it, and leaves the host
reading, with the word written (R43). -/
theorem runSteps_line_ok {s : State} {line : Line} {rest : List Line} {w : Word} {bin hex : Text}
    (hreq : s.requests = []) (hphase : s.phase = .reading) (hinput : s.input = line :: rest)
    (hskip : isSkipped line = false) (henc : encodeLine line = .ok w bin hex) (k : Nat) :
    runSteps (k + 3) s = runSteps k { s with
      input := rest, out := s.out ++ [hex], lineIndex := s.lineIndex + 1, response := none } := by
  rw [runSteps_handOver hreq hphase hinput hskip, henc,
    runSteps_succ_of_step (step_waiting_ok (by simp [hreq]) rfl rfl)]
  simp [State.handOver, State.retire, State.deliver, State.writeWord, hreq, hphase]

/-- A line that does not encode ends the run in three steps (R44). -/
theorem runSteps_line_err {s : State} {line : Line} {rest : List Line} {e : EncodeError}
    (hreq : s.requests = []) (hphase : s.phase = .reading) (hinput : s.input = line :: rest)
    (hskip : isSkipped line = false) (henc : encodeLine line = .err e) :
    runSteps 3 s = .next { s with input := rest, phase := .failed s.lineIndex e, response := none } := by
  rw [runSteps_handOver hreq hphase hinput hskip, henc,
    runSteps_succ_of_step (step_waiting_err (by simp [hreq]) rfl rfl)]
  simp [runSteps, State.handOver, State.retire, State.deliver, State.abortRun, hreq]

/-! ## The loop of `assemble` -/

theorem assembleFrom_skipped {line : Line} (h : isSkipped line = true) (n : Nat) (out : List Text)
    (rest : List Line) : assembleFrom n out (line :: rest) = assembleFrom (n + 1) out rest := by
  simp only [assembleFrom, h, if_true]

theorem assembleFrom_ok {line : Line} {w : Word} {bin hex : Text} (h : isSkipped line = false)
    (henc : encodeLine line = .ok w bin hex) (n : Nat) (out : List Text) (rest : List Line) :
    assembleFrom n out (line :: rest) = assembleFrom (n + 1) (out ++ [hex]) rest := by
  simp [assembleFrom, h, henc]

theorem assembleFrom_err {line : Line} {e : EncodeError} (h : isSkipped line = false)
    (henc : encodeLine line = .err e) (n : Nat) (out : List Text) (rest : List Line) :
    assembleFrom n out (line :: rest) = .failed n e := by
  simp [assembleFrom, h, henc]

/-- From a host that reads, the steps reach the outcome of the loop of R46 on the lines left: one step for a skipped
line, three for a line that is handed over, one for the end of the input. -/
theorem runSteps_reaches_assembleFrom (lines : List Line) (s : State) (hreq : s.requests = [])
    (hphase : s.phase = .reading) (hinput : s.input = lines) :
    ∃ (k : Nat) (t : State), k ≤ 3 * lines.length + 1 ∧ runSteps k s = .next t ∧
      t.outcome = some (assembleFrom s.lineIndex s.out lines) := by
  induction lines generalizing s with
  | nil => exact ⟨1, _, by simp, runSteps_succ_of_step (step_reading_end hreq hphase hinput) 0, rfl⟩
  | cons line rest ih =>
    rw [List.length_cons]
    cases hskip : isSkipped line with
    | true =>
      obtain ⟨k, t, hk, hrun, hout⟩ := ih (s.skipLine rest).retire hreq hphase rfl
      refine ⟨k + 1, t, by omega, ?_, by rw [hout, assembleFrom_skipped hskip]; rfl⟩
      rw [runSteps_succ_of_step (step_reading_skipped hreq hphase hinput hskip), hrun]
    | false =>
      cases henc : encodeLine line with
      | ok w bin hex =>
        obtain ⟨k, t, hk, hrun, hout⟩ := ih { s with
          input := rest, out := s.out ++ [hex], lineIndex := s.lineIndex + 1, response := none } hreq hphase rfl
        refine ⟨k + 3, t, by omega, ?_, by rw [hout, assembleFrom_ok hskip henc]⟩
        rw [runSteps_line_ok hreq hphase hinput hskip henc, hrun]
      | err e =>
        exact ⟨3, _, by omega, runSteps_line_err hreq hphase hinput hskip henc,
          by rw [assembleFrom_err hskip henc]; rfl⟩

/-- The loop of R46 ends in an image exactly when every line left that is not skipped encodes; the image is the output
so far and then their hex renderings in order (R43). -/
theorem assembleFrom_eq_image_iff (lines : List Line) (n : Nat) (out ws : List Text) :
    assembleFrom n out lines = .image ws ↔
      ∃ hs, ws = out ++ hs ∧ List.Forall₂ (fun line hex => ∃ w bin, encodeLine line = .ok w bin hex)
        (lines.filter fun l => !isSkipped l) hs := by
  induction lines generalizing n out with
  | nil => simp [assembleFrom, eq_comm]
  | cons line rest ih =>
    cases hskip : isSkipped line with
    | true => simp [assembleFrom_skipped hskip, ih, hskip]
    | false =>
      rw [List.filter_cons_of_pos (by simp [hskip])]
      cases henc : encodeLine line with
      | ok w bin hex => simp [assembleFrom_ok hskip henc, ih, List.forall₂_cons_left_iff, henc]
      | err e => simp [assembleFrom_err hskip henc, List.forall₂_cons_left_iff, henc]

/-- The line at index `k` is not skipped and has the error `e`, and every line before it that is not skipped encodes
(R44). -/
def FailsFirstAt (lines : List Line) (k : Nat) (e : EncodeError) : Prop :=
  ∃ line, lines[k]? = some line ∧ isSkipped line = false ∧ encodeLine line = .err e ∧
    ∀ j < k, ∀ l, lines[j]? = some l → isSkipped l = false → ∃ w bin hex, encodeLine l = .ok w bin hex

theorem not_failsFirstAt_nil (k : Nat) (e : EncodeError) : ¬ FailsFirstAt [] k e := by
  rintro ⟨line, hline, -⟩
  cases hline

theorem failsFirstAt_zero (line : Line) (rest : List Line) (e : EncodeError) :
    FailsFirstAt (line :: rest) 0 e ↔ isSkipped line = false ∧ encodeLine line = .err e := by
  simp [FailsFirstAt]

theorem failsFirstAt_succ (line : Line) (rest : List Line) (k : Nat) (e : EncodeError) :
    FailsFirstAt (line :: rest) (k + 1) e ↔
      (isSkipped line = false → ∃ w bin hex, encodeLine line = .ok w bin hex) ∧ FailsFirstAt rest k e := by
  constructor
  · rintro ⟨bad, hbad, hskip, henc, hbefore⟩
    exact ⟨hbefore 0 k.succ_pos line rfl, bad, hbad, hskip, henc,
      fun j hj => hbefore (j + 1) (Nat.succ_lt_succ hj)⟩
  · rintro ⟨hline, bad, hbad, hskip, henc, hbefore⟩
    refine ⟨bad, hbad, hskip, henc, fun j hj l hl => ?_⟩
    cases j with
    | zero => cases hl; exact hline
    | succ j => exact hbefore j (Nat.lt_of_succ_lt_succ hj) l hl

/-- The loop of R46 fails exactly at the first bad line among the lines left (R44). -/
theorem assembleFrom_eq_failed_iff (lines : List Line) (n m : Nat) (out : List Text) (e : EncodeError) :
    assembleFrom n out lines = .failed m e ↔ ∃ k, m = n + k ∧ FailsFirstAt lines k e := by
  induction lines generalizing n out with
  | nil => simp [assembleFrom, not_failsFirstAt_nil]
  | cons line rest ih =>
    rw [← Nat.or_exists_add_one]
    simp only [failsFirstAt_zero, failsFirstAt_succ, Nat.add_zero]
    cases hskip : isSkipped line with
    | true => simp [assembleFrom_skipped hskip, ih, Nat.add_assoc, Nat.add_comm 1]
    | false =>
      cases henc : encodeLine line with
      | ok w bin hex => simp [assembleFrom_ok hskip henc, ih, Nat.add_assoc, Nat.add_comm 1]
      | err err => simp [assembleFrom_err hskip henc, eq_comm]

/-! ## The host's filter -/

theorem isBlank_iff (c : Byte) : isBlank c = true ↔ c ∈ [0x20#8, 0x09#8, 0x0A#8, 0x0B#8, 0x0C#8, 0x0D#8] := by
  simp [isBlank, or_assoc]

theorem isSkipped_iff (line : Line) : isSkipped line = true ↔
    (∀ c ∈ line, c ∈ [0x20#8, 0x09#8, 0x0A#8, 0x0B#8, 0x0C#8, 0x0D#8]) ∨ line.head? = some 0x23#8 := by
  simp only [isSkipped, Bool.or_eq_true, List.all_eq_true, isBlank_iff, beq_iff_eq]

/-- White space at the end of a line does not change whether the host skips it (R41). -/
theorem isSkipped_append_blank (line : Line) {tail : Text} (h : tail.all isBlank = true) :
    isSkipped (line ++ tail) = isSkipped line := by
  cases line with
  | nil => simp [isSkipped, h]
  | cons c cs => simp [isSkipped, List.all_append, h]

/-! ## Separators at the end of a line -/

/-- Separators at the end of a line add no token (R61). -/
theorem tokenize_append_seps (line : Line) {seps : Text} (h : ∀ c ∈ seps, isSep c = true) (hne : seps ≠ []) :
    tokenize (line ++ seps) = tokenize line := by
  simpa [tokenize] using tokenizeFrom_split line [] [] h hne

theorem encodeLine_append_seps (line : Line) {seps : Text} (h : ∀ c ∈ seps, isSep c = true) (hne : seps ≠ []) :
    encodeLine (line ++ seps) = encodeLine line := by
  simp only [encodeLine, tokenize_append_seps line h hne]

/-! ## Input and output texts -/

/-- The first line of a text is what stands before its first LF (R40). -/
theorem splitLines_append_lf {line : Line} (h : 0x0A#8 ∉ line) (rest : Text) :
    splitLines (line ++ [0x0A#8] ++ rest) = line :: splitLines rest := by
  induction line with
  | nil => simp [splitLines]
  | cons c cs ih =>
    obtain ⟨hc, hcs⟩ := List.ne_and_not_mem_of_not_mem_cons h
    simp only [List.cons_append, splitLines, if_neg hc.symm, ih hcs]

/-- Lines without LF are read back from the text in which each is ended by LF (R40, R42). -/
theorem splitLines_imageText {lines : List Line} (h : ∀ l ∈ lines, 0x0A#8 ∉ l) :
    splitLines (imageText lines) = lines := by
  induction lines with
  | nil => rfl
  | cons line rest ih =>
    obtain ⟨hline, hrest⟩ := List.forall_mem_cons.1 h
    rw [imageText, List.flatMap_cons, splitLines_append_lf hline, ← imageText, ih hrest]

theorem lf_not_mem_renderHex (w : Word) : 0x0A#8 ∉ renderHex w := fun h =>
  absurd (List.all_eq_true.1 (renderHex_all_isUpperHex w) _ h) (by decide)

/-- An `Ok` of the whole operation carries the hex rendering of its word (R100). -/
theorem hex_of_encodeLine {line : Line} {w : Word} {bin hex : Text} (h : encodeLine line = .ok w bin hex) :
    hex = renderHex w := by
  have hlegal := encodeLine_legal line
  rw [h] at hlegal
  obtain ⟨-, -, hhex⟩ := eq_okResult_of_legal hlegal
  exact hhex

/-- No word of an image holds an LF (R42, R99). -/
theorem lf_not_mem_words {accepted : List Line} {words : List Text}
    (h : List.Forall₂ (fun line hex => ∃ w bin, encodeLine line = .ok w bin hex) accepted words) :
    ∀ t ∈ words, 0x0A#8 ∉ t := by
  induction h with
  | nil => simp
  | cons hword _ ih =>
    obtain ⟨w, bin, henc⟩ := hword
    exact List.forall_mem_cons.2 ⟨hex_of_encodeLine henc ▸ lf_not_mem_renderHex w, ih⟩

/-! ## The obligations of the family -/

/-- Settles O39: the block's answer is a legal result, and every move of the host keeps the invariant. -/
theorem everyStepKeepsTheInvariant : Obligations.EveryStepKeepsTheInvariant := by
  intro s t hinv hstep
  cases hreq : s.requests with
  | nil =>
    rw [step_of_no_request hreq] at hstep
    cases hstep
    exact inv_driverStep hinv hreq
  | cons line rest =>
    rw [step_of_request hreq] at hstep
    cases hstep
    exact inv_deliver hinv (by simp [hreq]) (encodeLine_legal line)

/-- Settles O52: a run starts with the host reading at line 0, the header written. -/
theorem runEndsInTheAssembledOutcome : Obligations.RunEndsInTheAssembledOutcome :=
  fun s lines hreq => runSteps_reaches_assembleFrom lines (s.startRun lines) hreq rfl rfl

/-- Settles O53. -/
theorem imageHoldsOneWordPerAcceptedLine : Obligations.ImageHoldsOneWordPerAcceptedLine :=
  fun lines ws => assembleFrom_eq_image_iff lines 0 [header] ws

/-- Settles O54. -/
theorem runFailsAtTheFirstBadLine : Obligations.RunFailsAtTheFirstBadLine := by
  intro lines n e
  rw [assemble, assembleFrom_eq_failed_iff]
  simp only [Nat.zero_add, exists_eq_left']
  rfl

/-- Settles O57: CR and LF are separators to the block and white space to the host's filter. -/
theorem lineTerminatorsDoNotMatter : Obligations.LineTerminatorsDoNotMatter :=
  ⟨fun _ => splitLines_imageText,
    fun line => ⟨encodeLine_append_seps line (by decide) (by decide), isSkipped_append_blank line (by decide)⟩⟩

/-- Settles O58: the file is the text of the image, none of whose lines holds an LF. -/
theorem outputFileIsTheImageLineByLine : Obligations.OutputFileIsTheImageLineByLine := by
  intro lines file hfile
  cases hrun : assemble lines with
  | failed n e => rw [hrun] at hfile; cases hfile
  | image ws =>
    rw [hrun] at hfile
    cases hfile
    obtain ⟨hs, rfl, hwords⟩ := (assembleFrom_eq_image_iff lines 0 [header] ws).1 hrun
    have hlines : ∀ t ∈ header :: hs, 0x0A#8 ∉ t := List.forall_mem_cons.2 ⟨by decide, lf_not_mem_words hwords⟩
    exact ⟨hs, rfl, rfl, splitLines_imageText hlines⟩

/-- Settles O55, by whether the line is skipped. -/
theorem hostFiltersBlankAndCommentLines : Obligations.HostFiltersBlankAndCommentLines := by
  intro s line rest hreq hphase hinput
  rw [← isSkipped_iff, Bool.not_eq_true]
  refine ⟨fun hskip => step_reading_skipped hreq hphase hinput hskip, fun hskip => ?_⟩
  rw [step_reading_handOver hreq hphase hinput hskip, State.handOver, hreq]
  rfl

/-- Settles O56: an aborted run steps to itself. -/
theorem hostWritesTheWordOrAborts : Obligations.HostWritesTheWordOrAborts := by
  intro s hreq hphase
  refine ⟨fun w bin hex hresp => step_waiting_ok hreq hphase hresp, fun e hresp => ?_⟩
  exact ⟨_, step_waiting_err hreq hphase hresp, rfl, rfl, runSteps_of_step_self (step_failed hreq rfl rfl)⟩

end Sys2Proof.Machine
end

section
/-! SUPPORT. Proofs of the family 30_encoding, first part: the encoder and the decoder of words are inverse to each
other on the canonical instructions (R57, R62, R66). -/

namespace Sys2Proof

/-! ## What the encoder answers, by the shape of the operand list (R62) -/

theorem encodeRegs_eq_some {pattern w : Word} {ops : List Token} :
    encodeRegs pattern ops = some w ↔
      ∃ rs rt, ops = [regToken rs, regToken rt] ∧ w = placeRegs pattern rs rt := by
  constructor
  · intro h
    unfold encodeRegs at h
    split at h
    · split at h
      next rs rt ha hb =>
        cases h
        exact ⟨rs, rt, by rw [rtabLookup_some ha, rtabLookup_some hb], rfl⟩
      · cases h
    · cases h
  · rintro ⟨rs, rt, rfl, rfl⟩
    simp [encodeRegs]

theorem encodeImm_eq_some {pattern w : Word} {ops : List Token} :
    encodeImm pattern ops = some w ↔
      ∃ rs t imm, ops = [regToken rs, t] ∧ immediateOf t = some imm ∧ w = placeImm pattern rs imm := by
  constructor
  · intro h
    unfold encodeImm at h
    split at h
    next a b =>
      split at h
      next rs imm ha hb =>
        cases h
        exact ⟨rs, b, imm, by rw [rtabLookup_some ha], hb, rfl⟩
      · cases h
    · cases h
  · rintro ⟨rs, t, imm, rfl, himm, rfl⟩
    simp [encodeImm, himm]

theorem encodeReg_eq_some {pattern w : Word} {ops : List Token} :
    encodeReg pattern ops = some w ↔ ∃ rs, ops = [regToken rs] ∧ w = placeImm pattern rs 0#8 := by
  constructor
  · intro h
    unfold encodeReg at h
    split at h
    · obtain ⟨rs, ha, rfl⟩ := Option.map_eq_some_iff.1 h
      exact ⟨rs, by rw [rtabLookup_some ha], rfl⟩
    · cases h
  · rintro ⟨rs, rfl, rfl⟩
    simp [encodeReg]

theorem encodeNone_eq_some {pattern w : Word} {ops : List Token} :
    encodeNone pattern ops = some w ↔ ops = [] ∧ w = pattern := by
  cases ops <;> simp [encodeNone, eq_comm]

/-- The encoder answers exactly on the well-formed instructions (R62). -/
theorem isSome_encode (i : Instr) : (encode i).isSome = i.wf := by
  cases i with
  | add ops => exact Laws.EncodesIffWellFormed.add ops
  | mult ops => exact Laws.EncodesIffWellFormed.mult ops
  | lw ops => exact Laws.EncodesIffWellFormed.lw ops
  | sw ops => exact Laws.EncodesIffWellFormed.sw ops
  | halt ops => exact Laws.EncodesIffWellFormed.halt ops
  | addi ops => exact Laws.EncodesIffWellFormed.addi ops
  | addui ops => exact Laws.EncodesIffWellFormed.addui ops
  | bz ops => exact Laws.EncodesIffWellFormed.bz ops
  | bp ops => exact Laws.EncodesIffWellFormed.bp ops
  | put ops => exact Laws.EncodesIffWellFormed.put ops

theorem exists_encode_of_wf {i : Instr} (h : i.wf = true) : ∃ w, encode i = some w :=
  Option.isSome_iff_exists.1 ((isSome_encode i).trans h)

/-! ## Canonical text has the same word (R66) -/

/-- A literal and its canonical text have the same immediate; a token that is no literal stays as it is. -/
theorem immediateOf_canonLiteral (t : Token) : immediateOf (canonLiteral t) = immediateOf t := by
  cases h : immediateOf t with
  | some v => rw [canonLiteral_of_some h, immediateOf_immToken]
  | none => simp only [canonLiteral, h]

theorem encodeImm_canonImm (pattern : Word) (ops : List Token) :
    encodeImm pattern (canonImm ops) = encodeImm pattern ops := by
  match ops with
  | [a, b] => simp only [canonImm, encodeImm, immediateOf_canonLiteral]
  | [] | [_] | _ :: _ :: _ :: _ => rfl

theorem encode_canonical (i : Instr) : encode i.canonical = encode i := by
  cases i with
  | add ops | mult ops | lw ops | sw ops | halt ops | put ops => rfl
  | addi ops | addui ops | bz ops | bp ops => exact encodeImm_canonImm _ ops

/-! ## Decoding an encoded instruction -/

/-- The register operands of a filled-in row are those filled in. -/
theorem regOperands_placeRegs {pattern : Word} (hp : pattern &&& 0xF03F#16 = pattern) (rs rt : RegCode) :
    regOperands (placeRegs pattern rs rt) = [regToken rs, regToken rt] := by
  rw [← hp, regOperands, rsField_placeRegs, rtField_placeRegs]

/-- The register and literal operands of a filled-in row are those filled in. -/
theorem immOperands_placeImm {pattern : Word} (hp : pattern &&& 0xF100#16 = pattern) (rs : RegCode)
    (imm : BitVec 8) : immOperands (placeImm pattern rs imm) = [regToken rs, immToken imm] := by
  rw [← hp, immOperands, rsField_placeImm, immField_placeImm]

theorem decode_of_encodeRegs {pattern w : Word} {ops : List Token} {build : List Token → Instr}
    (hrow : ⟨pattern, 0xF03F#16, fun w => build (regOperands w)⟩ ∈ wordRows)
    (hp : pattern &&& 0xF03F#16 = pattern) (h : encodeRegs pattern ops = some w) : decode w = .ok (build ops) := by
  obtain ⟨rs, rt, rfl, rfl⟩ := encodeRegs_eq_some.1 h
  rw [decode_of_covers _ _ hrow ((placeRegs_and_mask _ _ _).trans hp)]
  simp only [regOperands_placeRegs hp]

theorem decode_of_encodeImm {pattern w : Word} {ops : List Token} {build : List Token → Instr}
    (hrow : ⟨pattern, 0xF100#16, fun w => build (immOperands w)⟩ ∈ wordRows)
    (hp : pattern &&& 0xF100#16 = pattern) (h : encodeImm pattern ops = some w) :
    decode w = .ok (build (canonImm ops)) := by
  obtain ⟨rs, t, imm, rfl, himm, rfl⟩ := encodeImm_eq_some.1 h
  rw [decode_of_covers _ _ hrow ((placeImm_and_mask _ _ _).trans hp)]
  simp only [immOperands_placeImm hp, canonImm, canonLiteral_of_some himm]

theorem decode_of_encodeReg {w : Word} {ops : List Token} (h : encodeReg 0xF000#16 ops = some w) :
    decode w = .ok (.put ops) := by
  obtain ⟨rs, rfl, rfl⟩ := encodeReg_eq_some.1 h
  have hrow : ⟨0xF000#16, 0xF1FF#16, fun w => .put [regToken (rsField w)]⟩ ∈ wordRows := by simp [wordRows]
  have hfield : rsField (placeImm 0xF000#16 rs 0#8) = rs := rsField_placeImm 0xF000#16 rs 0#8
  rw [decode_of_covers _ _ hrow (placeImm_zero_and_mask _ _)]
  simp only [hfield]

/-- The word of an instruction decodes to the instruction's canonical text (R66). -/
theorem decode_of_encode {i : Instr} {w : Word} (h : encode i = some w) : decode w = .ok i.canonical := by
  cases i with
  | add ops | mult ops | lw ops | sw ops => exact decode_of_encodeRegs (by simp [wordRows]) rfl h
  | addi ops | addui ops | bz ops | bp ops => exact decode_of_encodeImm (by simp [wordRows]) rfl h
  | halt ops =>
    obtain ⟨rfl, rfl⟩ := encodeNone_eq_some.1 h
    rfl
  | put ops => exact decode_of_encodeReg h

/-! ## Encoding a decoded word -/

theorem encodeRegs_regOperands {pattern w : Word} (h : w &&& 0xF03F#16 = pattern) :
    encodeRegs pattern (regOperands w) = some w :=
  encodeRegs_eq_some.2 ⟨_, _, rfl, by rw [← h, placeRegs_of_word]⟩

theorem encodeImm_immOperands {pattern w : Word} (h : w &&& 0xF100#16 = pattern) :
    encodeImm pattern (immOperands w) = some w :=
  encodeImm_eq_some.2 ⟨_, _, _, rfl, immediateOf_immToken _, by rw [← h, placeImm_of_word]⟩

theorem encodeReg_rsField {pattern w : Word} (h : w &&& 0xF1FF#16 = pattern) :
    encodeReg pattern [regToken (rsField w)] = some w :=
  encodeReg_eq_some.2 ⟨_, rfl, by rw [← h, placeImm_of_word_zero]⟩

/-- The instruction a row of R57 reads from a word it covers has that word. -/
theorem encode_build : ∀ r ∈ wordRows, ∀ w : Word, w &&& r.mask = r.pattern → encode (r.build w) = some w := by
  simp only [wordRows, List.forall_mem_cons, List.not_mem_nil, false_imp_iff, implies_true, and_true]
  refine ⟨?add, ?mult, ?lw, ?sw, ?halt, ?addi, ?addui, ?bz, ?bp, ?put⟩
  case add | mult | lw | sw => exact fun _ => encodeRegs_regOperands
  case addi | addui | bz | bp => exact fun _ => encodeImm_immOperands
  case halt => exact fun w h => congrArg some (h.symm.trans (BitVec.and_allOnes (x := w)))
  case put => exact fun _ => encodeReg_rsField

theorem encode_of_decode {w : Word} {i : Instr} (h : decode w = .ok i) : encode i = some w := by
  obtain ⟨r, hr, hcov, rfl⟩ := decode_ok h
  exact encode_build r hr w hcov

/-- An instruction read from a word is its own canonical text: it has the word, whose decoding is that text. -/
theorem canonical_of_decode {w : Word} {i : Instr} (h : decode w = .ok i) : i.canonical = i := by
  have hcanon := decode_of_encode (encode_of_decode h)
  rw [h] at hcanon
  exact (Except.ok.inj hcanon).symm

theorem isCanonical_iff (i : Instr) : i.isCanonical = true ↔ i.wf = true ∧ i.canonical = i := by
  simp [Instr.isCanonical]

theorem isCanonical_of_decode {w : Word} {i : Instr} (h : decode w = .ok i) : i.isCanonical = true := by
  refine (isCanonical_iff i).2 ⟨?_, canonical_of_decode h⟩
  rw [← isSome_encode, encode_of_decode h, Option.isSome_some]

end Sys2Proof

namespace Sys2Proof.Machine

/-! ## The round trips -/

/-- Settles O8. -/
theorem encodeOfDecodeIsTheWord : Obligations.EncodeOfDecodeIsTheWord :=
  fun _ _ h => ⟨isCanonical_of_decode h, encode_of_decode h⟩

/-- Settles O7: the canonical text has the same word, and what that word decodes to is canonical. -/
theorem decodeOfEncodeIsTheCanonicalText : Obligations.DecodeOfEncodeIsTheCanonicalText := by
  intro i hwf
  obtain ⟨w, hw⟩ := exists_encode_of_wf hwf
  have hdecode : decode w = .ok i.canonical := decode_of_encode hw
  exact ⟨isCanonical_of_decode hdecode, w, hw, (encode_canonical i).trans hw, hdecode⟩

/-- Settles O6: a canonical instruction is its own canonical text. -/
theorem decodeOfEncodeIsTheInstruction : Obligations.DecodeOfEncodeIsTheInstruction := by
  intro i hi
  obtain ⟨hwf, hcanon⟩ := (isCanonical_iff i).1 hi
  obtain ⟨w, hw⟩ := exists_encode_of_wf hwf
  have hdecode : decode w = .ok i.canonical := decode_of_encode hw
  exact ⟨w, hw, by rw [hdecode, hcanon]⟩

/-- Settles O10: both canonical texts are what the word decodes to. -/
theorem wordDeterminesTheInstruction : Obligations.WordDeterminesTheInstruction := by
  intro i j w _ _ hi hj
  exact Except.ok.inj ((decode_of_encode hi).symm.trans (decode_of_encode hj))

/-- Settles O5, each word by running the decoder. -/
theorem writtenOutWordsDecode : Obligations.WrittenOutWordsDecode :=
  ⟨rfl, rfl, rfl, rfl, rfl, rfl, rfl, rfl⟩

end Sys2Proof.Machine
end

section
/-! SUPPORT. Proofs of the family 30_encoding, second part: the whole operation and `exec` yield the word of the
encoder, or an error (R59, R62, R66, R100). -/

namespace Sys2Proof.Machine

/-! ## The two ways to encode agree, by the shape of the operand list -/

theorem toOption_encodeTwoRegs (op : Opcode) (subop : BitVec 3) (ops : List Token) :
    (encodeTwoRegs op subop ops).toOption = encodeRegs (packR op 0#3 0#3 subop) ops := by
  unfold encodeTwoRegs
  rcases twoRegisters_cases ops with
    ⟨hlen, h⟩ | ⟨a, b, rfl, ha, h⟩ | ⟨a, b, rs, rfl, ha, hb, h⟩ | ⟨a, b, rs, rt, rfl, ha, hb, h⟩
  · match ops with
    | [] | [_] | _ :: _ :: _ :: _ => rfl
    | [_, _] => exact absurd rfl hlen
  · simp [h, encodeRegs, ha, Except.toOption]
  · simp [h, encodeRegs, ha, hb, Except.toOption]
  · simp only [h, encodeRegs, ha, hb, Except.toOption]
    rw [packR_eq_placeRegs]

theorem toOption_encodeNoRegs (op : Opcode) (subop : BitVec 3) (ops : List Token) :
    (encodeNoRegs op subop ops).toOption = encodeNone (packR op 0#3 0#3 subop) ops := by
  cases ops <;> rfl

theorem toOption_encodeRegImm (op : Opcode) (u : BitVec 1) (ops : List Token) :
    (encodeRegImm op u ops).toOption = encodeImm (packI op 0#3 u 0#8) ops := by
  unfold encodeRegImm
  rcases registerAndLiteral_cases ops with
    ⟨hlen, h⟩ | ⟨a, b, rfl, ha, h⟩ | ⟨a, b, rs, rfl, ha, hb, h⟩ | ⟨a, b, rs, imm, rfl, ha, hb, h⟩
  · match ops with
    | [] | [_] | _ :: _ :: _ :: _ => rfl
    | [_, _] => exact absurd rfl hlen
  · simp [h, encodeImm, ha, Except.toOption]
  · simp [h, encodeImm, ha, hb, Except.toOption]
  · simp only [h, encodeImm, ha, hb, Except.toOption]
    rw [packI_eq_placeImm]

theorem toOption_encodeOneReg (op : Opcode) (u : BitVec 1) (ops : List Token) :
    (encodeOneReg op u ops).toOption = encodeReg (packI op 0#3 u 0#8) ops := by
  unfold encodeOneReg
  rcases oneRegister_cases ops with ⟨hlen, h⟩ | ⟨a, rfl, ha, h⟩ | ⟨a, rs, rfl, ha, h⟩
  · match ops with
    | [] | _ :: _ :: _ => rfl
    | [_] => exact absurd rfl hlen
  · simp [h, encodeReg, ha, Except.toOption]
  · simp only [h, encodeReg, ha, Except.toOption, Option.map_some]
    rw [packI_eq_placeImm]

/-- The encoding of an instruction's table entry has the word of `encode`: the opcode, the sub-opcode and the unsigned
flag of the entry make up the pattern of R57. -/
theorem toOption_encodeEntry {i : Instr} {e : InstructionSpec} (h : isetLookup i.key = some e) :
    (encodeEntry i.key e i.ops).toOption = encode i := by
  cases i with
  | add ops | mult ops | lw ops | sw ops => cases h; exact toOption_encodeTwoRegs _ _ ops
  | halt ops => cases h; exact toOption_encodeNoRegs _ _ ops
  | addi ops | addui ops | bz ops | bp ops => cases h; dsimp only [Instr.key]; exact toOption_encodeRegImm _ _ ops
  | put ops => cases h; dsimp only [Instr.key]; exact toOption_encodeOneReg _ _ ops

/-! ## The whole operation on an instruction -/

/-- The whole operation on an instruction's mnemonic and operands answers `Ok` with the encoder's word, and an error
where the encoder has none. -/
theorem encodeTokens_key (i : Instr) :
    (∃ w, encode i = some w ∧ encodeTokens i.key i.ops = okResult w) ∨
    (encode i = none ∧ ∃ err, encodeTokens i.key i.ops = .err err) := by
  obtain ⟨e, hentry, -⟩ := exec_eq_respond_entry i
  rw [← toOption_encodeEntry hentry, encodeTokens_of_entry hentry]
  cases encodeEntry i.key e i.ops with
  | ok w => exact .inl ⟨w, rfl, rfl⟩
  | error err => exact .inr ⟨rfl, err, rfl⟩

theorem encodeTokens_of_encode {i : Instr} {w : Word} (h : encode i = some w) :
    encodeTokens i.key i.ops = okResult w := by
  rcases encodeTokens_key i with ⟨v, hv, hres⟩ | ⟨hnone, -⟩
  · cases hv.symm.trans h
    exact hres
  · cases hnone.symm.trans h

theorem exec_of_encode {i : Instr} {w : Word} (h : encode i = some w) (s : State) :
    exec i s = .next (s.deliver (okResult w)) := by
  rw [exec_eq_deliver, encodeTokens_of_encode h]

/-! ## The canonical source line of a word -/

/-- A token as the Tokenizer hands it over: not empty and without a separator (R80). -/
def IsToken (t : Token) : Prop := t ≠ [] ∧ ∀ c ∈ t, isSep c = false

theorem regToken_isToken (c : RegCode) : IsToken (regToken c) := ⟨List.cons_ne_nil _ _, regToken_isSep c⟩

theorem immToken_isToken (v : BitVec 8) : IsToken (immToken v) := immToken_isSep v

/-- The operands a row of R57 reads from a word are tokens. -/
theorem ops_build_isToken : ∀ r ∈ wordRows, ∀ w : Word, ∀ t ∈ (r.build w).ops, IsToken t := by
  simp [wordRows, Instr.ops, regOperands, immOperands, regToken_isToken, immToken_isToken]

/-- The canonical line of a decoded instruction is cut into its mnemonic and its operands. -/
theorem tokenize_lineOf_of_decode {w : Word} {i : Instr} (h : decode w = .ok i) :
    tokenize (lineOf i) = i.key :: i.ops := by
  obtain ⟨r, hr, -, rfl⟩ := decode_ok h
  exact tokenize_lineOf _ (ops_build_isToken r hr w)

theorem encodeLine_lineOf {w : Word} {i : Instr} (h : decode w = .ok i) : encodeLine (lineOf i) = okResult w := by
  rw [encodeLine, tokenize_lineOf_of_decode h]
  exact encodeTokens_of_encode (encode_of_decode h)

/-! ## Words as numbers -/

/-- A register and a literal filled into a pattern with clear fields add up (R52). -/
theorem placeImm_eq_ofNat {pattern : Word} (hp : pattern &&& 0xF100#16 = pattern) (rs : RegCode) {v : Nat}
    (hv : v ≤ 255) :
    placeImm pattern rs (BitVec.ofNat 8 v) = BitVec.ofNat 16 (pattern.toNat + 512 * rs.toNat + v) := by
  have hfields : rs.zeroExtend 16 <<< 9 &&& (BitVec.ofNat 8 v).zeroExtend 16 = 0#16 := by
    ext i hi
    interval_cases i <;> simp
  have hpattern : pattern &&& (rs.zeroExtend 16 <<< 9 + (BitVec.ofNat 8 v).zeroExtend 16) = 0#16 := by
    rw [BitVec.add_eq_or_of_and_eq_zero _ _ hfields, ← hp]
    ext i hi
    interval_cases i <;> simp
  have hrs := rs.isLt
  rw [placeImm, BitVec.or_assoc, ← BitVec.add_eq_or_of_and_eq_zero _ _ hfields,
    ← BitVec.add_eq_or_of_and_eq_zero _ _ hpattern]
  apply BitVec.eq_of_toNat_eq
  simp [Nat.shiftLeft_eq]
  omega

/-- A literal with a value in 0 to 255 is an immediate, however it is spelled (R90). -/
theorem immediateOf_of_readInteger {t : Token} {v : Nat} (h : readInteger t = some (v : Int)) (hv : v ≤ 255) :
    immediateOf t = some (BitVec.ofNat 8 v) := by
  rw [immediateOf_eq_some, h, BitVec.toNat_ofNat, Nat.mod_eq_of_lt (by omega)]

/-- An instruction that `encode` sends to a row's literal encoder completes with the sum of the pattern and the
fields. -/
theorem exec_literal {pattern : Word} (hp : pattern &&& 0xF100#16 = pattern) {build : List Token → Instr}
    (hbuild : ∀ ops, encode (build ops) = encodeImm pattern ops) (a : RegCode) {t : Token} {v : Nat}
    (ht : readInteger t = some (v : Int)) (hv : v ≤ 255) (s : State) :
    exec (build [regToken a, t]) s =
      .next (s.deliver (okValue (pattern.toNat + 512 * a.toNat + v))) := by
  have hw : encode (build [regToken a, t]) = some (placeImm pattern a (BitVec.ofNat 8 v)) :=
    (hbuild _).trans (encodeImm_eq_some.2 ⟨a, t, _, rfl, immediateOf_of_readInteger ht hv, rfl⟩)
  rw [exec_of_encode hw, placeImm_eq_ofNat hp a hv, okValue]

/-! ## The obligations -/

/-- Settles O9. -/
theorem encodingTheCanonicalLineGivesTheWord : Obligations.EncodingTheCanonicalLineGivesTheWord :=
  fun _ _ => encodeLine_lineOf

/-- Settles O3: the step delivers the result of the whole operation, which is an error for an absent mnemonic. -/
theorem absentMnemonicIsAnError : Obligations.AbsentMnemonicIsAnError := by
  intro s line rest hreq habsent
  rw [step_of_request hreq, encodeLine, mnemonicOf, encodeTokens_of_absent habsent, State.deliver, hreq]
  rfl

/-- Settles O26: the base of each number is the pattern of the mnemonic's row in R57. -/
theorem literalInstructionsComplete : Obligations.LiteralInstructionsComplete := by
  intro a t v s ht hv
  exact ⟨exec_literal (pattern := 0x1000#16) (build := .addi) rfl (fun _ => rfl) a ht hv s,
    exec_literal (pattern := 0x1100#16) (build := .addui) rfl (fun _ => rfl) a ht hv s,
    exec_literal (pattern := 0x8000#16) (build := .bz) rfl (fun _ => rfl) a ht hv s,
    exec_literal (pattern := 0xA000#16) (build := .bp) rfl (fun _ => rfl) a ht hv s⟩

/-- Settles O27, by whether the encoder has a word. -/
theorem exactlyWellFormedInstructionsComplete : Obligations.ExactlyWellFormedInstructionsComplete := by
  intro i s
  rw [← isSome_encode]
  rcases encodeTokens_key i with ⟨w, hw, hres⟩ | ⟨hnone, err, hres⟩
  · refine ⟨fun _ => ⟨w, hw, exec_of_encode hw s⟩, fun hill => ?_⟩
    rw [hw] at hill
    cases hill
  · refine ⟨fun hwf => ?_, fun _ => ⟨err, by rw [exec_eq_deliver, hres]; rfl⟩⟩
    rw [hnone] at hwf
    cases hwf

end Sys2Proof.Machine
end

section
/-! SUPPORT. Proofs of the family 30_encoding, third part: the rows of R57 and the words they cover (R56 to R58). -/

namespace Sys2Proof.Machine

/-! ## The mnemonics of the rows -/

/-- The two tables of R57 have the same rows: an instruction that a row builds has the row's mnemonic. -/
theorem exists_wordRow : ∀ p ∈ rowTable, ∃ r ∈ wordRows,
    r.pattern = p.2.1 ∧ r.mask = p.2.2 ∧ ∀ w : Word, (r.build w).key = p.1 := by
  simp [rowTable, wordRows, Instr.key]

/-- A word that a row covers decodes to an instruction with the row's mnemonic. -/
theorem exists_decode_of_row {p : Token × Word × Word} (hp : p ∈ rowTable) {w : Word} (hw : w &&& p.2.2 = p.2.1) :
    ∃ i, decode w = .ok i ∧ i.key = p.1 := by
  obtain ⟨r, hr, hpattern, hmask, hkey⟩ := exists_wordRow p hp
  exact ⟨r.build w, decode_of_covers w r hr (by rw [hmask, hpattern, hw]), hkey w⟩

/-- Two rows with one mnemonic are the same row. -/
theorem row_eq_of_key_eq {p q : Token × Word × Word} (hp : p ∈ rowTable) (hq : q ∈ rowTable) (h : p.1 = q.1) :
    p = q := by
  have hnodup : (rowTable.map Prod.fst).Nodup := by decide
  have hlp := (tableLookup_eq_some_iff_mem hnodup p.1 p.2).2 hp
  have hlq := (tableLookup_eq_some_iff_mem hnodup q.1 q.2).2 hq
  rw [h, hlq] at hlp
  exact Prod.ext h (Option.some.inj hlp).symm

/-- Settles O11: a word decodes to one instruction only, so two rows that cover it have one mnemonic. -/
theorem rowsAreDisjoint : Obligations.RowsAreDisjoint := by
  intro w p hp q hq hwp hwq
  obtain ⟨i, hi, hkeyp⟩ := exists_decode_of_row hp hwp
  obtain ⟨j, hj, hkeyq⟩ := exists_decode_of_row hq hwq
  have hij : i = j := Except.ok.inj (hi.symm.trans hj)
  exact row_eq_of_key_eq hp hq (by rw [← hkeyp, ← hkeyq, hij])

/-! ## The words of accepted lines -/

/-- The row of a table entry of `ISET` covers every word that the entry's mnemonic yields. -/
theorem exists_row_of_encodeTokens {m : Token} {ops : List Token} {w : Word} {bin hex : Text}
    (h : encodeTokens m ops = .ok w bin hex) : ∃ p ∈ rowTable, p.1 = m ∧ w &&& p.2.2 = p.2.1 := by
  cases hentry : isetLookup m with
  | none => rw [encodeTokens_of_absent hentry] at h; cases h
  | some e =>
    rw [encodeTokens_of_entry hentry] at h
    rcases encodeEntry_cases m e ops with ⟨v, hok, hv⟩ | ⟨err, herr, -⟩
    · rw [hok] at h
      cases h
      exact ⟨_, entry_mem_rowTable _ ((isetLookup_eq_some_iff_mem m e).1 hentry), rfl, hv⟩
    · rw [herr] at h
      cases h

/-- A word that a row covers is the word of a line with the row's mnemonic: the canonical line of what it decodes
to. -/
theorem exists_line_of_row {p : Token × Word × Word} (hp : p ∈ rowTable) {w : Word} (hw : w &&& p.2.2 = p.2.1) :
    ∃ line, (tokenize line).head? = some p.1 ∧ encodeLine line = okResult w := by
  obtain ⟨i, hi, hkey⟩ := exists_decode_of_row hp hw
  exact ⟨lineOf i, by rw [tokenize_lineOf_of_decode hi, hkey, List.head?_cons], encodeLine_lineOf hi⟩

/-- Settles O12: a line's row is that of its mnemonic, and a covered word has its canonical line. -/
theorem rowCoversExactlyItsMnemonicsWords : Obligations.RowCoversExactlyItsMnemonicsWords := by
  intro p hp w
  constructor
  · rintro ⟨line, bin, hex, hhead, hline⟩
    have hmnemonic : mnemonicOf (tokenize line) = p.1 := by simp [mnemonicOf, hhead]
    rw [encodeLine, hmnemonic] at hline
    obtain ⟨q, hq, hkey, hw⟩ := exists_row_of_encodeTokens hline
    rwa [row_eq_of_key_eq hq hp hkey] at hw
  · intro hw
    obtain ⟨line, hhead, hline⟩ := exists_line_of_row hp hw
    exact ⟨line, _, _, hhead, hline⟩

/-- The words of `Ok` results are those that a row of R57 covers (R58). -/
theorem emitted_iff_covered (w : Word) : (∃ (line : Line) (bin hex : Text), encodeLine line = .ok w bin hex) ↔
    ∃ p ∈ rowTable, w &&& p.2.2 = p.2.1 := by
  constructor
  · rintro ⟨line, bin, hex, hline⟩
    obtain ⟨p, hp, -, hw⟩ := exists_row_of_encodeTokens hline
    exact ⟨p, hp, hw⟩
  · rintro ⟨p, hp, hw⟩
    obtain ⟨line, -, hline⟩ := exists_line_of_row hp hw
    exact ⟨line, _, _, hline⟩

/-! ## How many words a row covers -/

/-- The words that a mask and a pattern describe. -/
def coveredWords (pattern mask : Word) : Finset Word := Finset.univ.filter fun w => w &&& mask = pattern

theorem mem_coveredWords {pattern mask w : Word} : w ∈ coveredWords pattern mask ↔ w &&& mask = pattern := by
  simp [coveredWords]

theorem card_bitVec (n : Nat) : Fintype.card (BitVec n) = 2 ^ n :=
  (Fintype.card_congr BitVec.equivFin.toEquiv).trans (Fintype.card_fin _)

/-- Where the words of a row correspond to the values of its fields, the row covers as many words as there are
values. -/
theorem card_coveredWords {pattern mask : Word} {α : Type} [Fintype α] (fields : Word → α) (fill : α → Word)
    (hcovers : ∀ x, fill x &&& mask = pattern) (hfill : ∀ w, w &&& mask = pattern → fill (fields w) = w)
    (hfields : ∀ x, fields (fill x) = x) : (coveredWords pattern mask).card = Fintype.card α := by
  rw [← Finset.card_univ]
  refine Finset.card_nbij' fields fill ?_ ?_ ?_ ?_
  · exact fun _ _ => Finset.mem_coe.2 (Finset.mem_univ _)
  · exact fun x _ => Finset.mem_coe.2 (mem_coveredWords.2 (hcovers x))
  · exact fun w hw => hfill w (mem_coveredWords.1 (Finset.mem_coe.1 hw))
  · exact fun x _ => hfields x

/-- A two-register row covers a word for each pair of registers. -/
theorem card_coveredWords_regs {pattern : Word} (hp : pattern &&& 0xF03F#16 = pattern) :
    (coveredWords pattern 0xF03F#16).card = 64 := by
  have hcard : (coveredWords pattern 0xF03F#16).card = Fintype.card (RegCode × RegCode) := by
    refine card_coveredWords (fun w => (rsField w, rtField w)) (fun x => placeRegs pattern x.1 x.2)
      (fun _ => (placeRegs_and_mask _ _ _).trans hp) (fun w hw => ?_) (fun _ => ?_)
    · rw [← hw, placeRegs_of_word]
    · rw [← hp]
      exact Prod.ext (rsField_placeRegs _ _ _) (rtField_placeRegs _ _ _)
  rw [hcard, Fintype.card_prod, card_bitVec]
  rfl

/-- A register and literal row covers a word for each register and each immediate. -/
theorem card_coveredWords_imm {pattern : Word} (hp : pattern &&& 0xF100#16 = pattern) :
    (coveredWords pattern 0xF100#16).card = 2048 := by
  have hcard : (coveredWords pattern 0xF100#16).card = Fintype.card (RegCode × BitVec 8) := by
    refine card_coveredWords (fun w => (rsField w, immField w)) (fun x => placeImm pattern x.1 x.2)
      (fun _ => (placeImm_and_mask _ _ _).trans hp) (fun w hw => ?_) (fun _ => ?_)
    · rw [← hw, placeImm_of_word]
    · rw [← hp]
      exact Prod.ext (rsField_placeImm _ _ _) (immField_placeImm _ _ _)
  rw [hcard, Fintype.card_prod, card_bitVec, card_bitVec]
  rfl

/-- The row of `put` covers a word for each register. -/
theorem card_coveredWords_put : (coveredWords 0xF000#16 0xF1FF#16).card = 8 := by
  have hcard : (coveredWords 0xF000#16 0xF1FF#16).card = Fintype.card RegCode :=
    card_coveredWords rsField (fun rs => placeImm 0xF000#16 rs 0#8) (fun _ => placeImm_zero_and_mask _ _)
      (fun w hw => by rw [← hw, placeImm_of_word_zero]) fun rs => rsField_placeImm 0xF000#16 rs 0#8
  rw [hcard, card_bitVec]
  rfl

/-- A row without operands covers its pattern only. -/
theorem card_coveredWords_none (pattern : Word) : (coveredWords pattern 0xFFFF#16).card = 1 :=
  Finset.card_eq_one.2 ⟨pattern, by
    ext w
    rw [mem_coveredWords, Finset.mem_singleton, show (0xFFFF#16) = BitVec.allOnes 16 from rfl, BitVec.and_allOnes]⟩

/-- The words that some row of R57 covers. -/
def producibleWords : Finset Word := rowTable.toFinset.biUnion fun p => coveredWords p.2.1 p.2.2

theorem mem_producibleWords (w : Word) : w ∈ producibleWords ↔ ∃ p ∈ rowTable, w &&& p.2.2 = p.2.1 := by
  simp only [producibleWords, Finset.mem_biUnion, List.mem_toFinset, mem_coveredWords]

/-- The words of disjoint rows are counted row by row: 4 · 64 + 1 + 4 · 2048 + 8. -/
theorem card_producibleWords : producibleWords.card = 8457 := by
  have hdisjoint : (rowTable.toFinset : Set (Token × Word × Word)).PairwiseDisjoint
      fun p => coveredWords p.2.1 p.2.2 := by
    intro p hp q hq hne
    rw [Finset.mem_coe, List.mem_toFinset] at hp hq
    refine Finset.disjoint_left.2 fun w hwp hwq => hne ?_
    exact rowsAreDisjoint w p hp q hq (mem_coveredWords.1 hwp) (mem_coveredWords.1 hwq)
  have hnodup : rowTable.Nodup := by decide
  rw [producibleWords, Finset.card_biUnion hdisjoint, List.sum_toFinset _ hnodup]
  simp [rowTable, card_coveredWords_regs, card_coveredWords_imm, card_coveredWords_put, card_coveredWords_none]

/-! ## The constant fields of the rows -/

/-- A field that lies in a row's mask is the same in every word that the row covers. -/
theorem extractLsb'_of_row {w mask pattern : Word} (h : w &&& mask = pattern) {start len : Nat}
    (hmask : mask.extractLsb' start len = BitVec.allOnes len) :
    w.extractLsb' start len = pattern.extractLsb' start len := by
  rw [← h, BitVec.extractLsb'_and, hmask, BitVec.and_allOnes]

/-- The constant fields that R58 names, in the mask and the match column of each row. -/
theorem rowTable_constantFields : ∀ p ∈ rowTable,
    p.2.2.extractLsb' 12 4 = BitVec.allOnes 4 ∧
    opcodeField p.2.1 ∉ [0b0011#4, 0b0100#4, 0b0101#4, 0b1001#4, 0b1011#4, 0b1100#4, 0b1101#4, 0b1110#4] ∧
    (opcodeField p.2.1 ∈ [0b0000#4, 0b0010#4, 0b0110#4] →
      p.2.2.extractLsb' 1 5 = BitVec.allOnes 5 ∧ p.2.1.extractLsb' 1 5 = 0#5) ∧
    (opcodeField p.2.1 ∈ [0b0000#4, 0b0010#4] → p.2.2.getLsbD 0 = true ∧ p.2.1.getLsbD 0 = false) ∧
    (opcodeField p.2.1 = 0b0111#4 → p.2.2 = BitVec.allOnes 16 ∧ p.2.1 = 0x7000#16) ∧
    (opcodeField p.2.1 ∈ [0b1000#4, 0b1010#4] → p.2.2.getLsbD 8 = true ∧ p.2.1.getLsbD 8 = false) ∧
    (opcodeField p.2.1 = 0b1111#4 →
      p.2.2.extractLsb' 0 9 = BitVec.allOnes 9 ∧ p.2.1.extractLsb' 0 9 = 0#9) := by
  decide

/-- Settles O13: emitted words are covered words, which are counted row by row, and a covered word has the constant
fields of its row. -/
theorem emittedWordsAreExactly8457 : Obligations.EmittedWordsAreExactly8457 := by
  refine ⟨emitted_iff_covered, ?count, ?fields⟩
  case count =>
    have hmem : ∀ w, w ∈ producibleWords ↔ ∃ (line : Line) (bin hex : Text), encodeLine line = .ok w bin hex :=
      fun w => (mem_producibleWords w).trans (emitted_iff_covered w).symm
    rw [Nat.subtype_card producibleWords hmem, card_producibleWords]
  case fields =>
    intro line w bin hex hline
    obtain ⟨p, hp, hw⟩ := (emitted_iff_covered w).1 ⟨line, bin, hex, hline⟩
    obtain ⟨hopcode, hassigned, hzero, heven, hhalt, hunsigned, hput⟩ := rowTable_constantFields p hp
    rw [show opcodeField w = opcodeField p.2.1 from extractLsb'_of_row hw hopcode]
    refine ⟨hassigned, fun h => ?_, fun h => ?_, fun h => ?_, fun h => ?_, fun h => ?_⟩
    · rw [extractLsb'_of_row hw (hzero h).1, (hzero h).2]
    · rw [getLsbD_of_and_mask hw 0 (heven h).1, (heven h).2]
    · rw [← (hhalt h).2, ← hw, (hhalt h).1, BitVec.and_allOnes]
    · rw [getLsbD_of_and_mask hw 8 (hunsigned h).1, (hunsigned h).2]
    · rw [extractLsb'_of_row hw (hput h).1, (hput h).2]

end Sys2Proof.Machine
end

section
/-! SUPPORT. Proofs of the family 30_encoding, fourth part: the grammar of lines (R61, R80) and of literals (R64,
R89). -/

namespace Sys2Proof

/-! ## Separators and tokens at the front of a line -/

/-- Separators before a line add no token (R61). -/
theorem tokenize_seps_append {seps : Text} (h : ∀ c ∈ seps, isSep c = true) (line : Line) :
    tokenize (seps ++ line) = tokenize line := by
  by_cases hne : seps = []
  · rw [hne, List.nil_append]
  · exact tokenizeFrom_seps [] line h hne

/-- Separators cut a line into two that are tokenized apart, whatever the separators are (R61). -/
theorem tokenize_append_seps_append (a b : Line) {seps : Text} (h : ∀ c ∈ seps, isSep c = true) (hne : seps ≠ []) :
    tokenize (a ++ seps ++ b) = tokenize a ++ tokenize b :=
  tokenizeFrom_split a b [] h hne

/-- A token alone is a line with that one token. -/
theorem tokenize_token {t : Token} (hne : t ≠ []) (h : ∀ c ∈ t, isSep c = false) : tokenize t = [t] := by
  rw [tokenize, tokenizeFrom_token [] h, List.nil_append, flushToken_of_ne_nil hne]

/-- Tokens, each followed by separators, are cut off one by one. -/
theorem tokenize_pairs_append (pairs : List (Token × Text))
    (h : ∀ p ∈ pairs, p.1 ≠ [] ∧ (∀ c ∈ p.1, isSep c = false) ∧ p.2 ≠ [] ∧ ∀ c ∈ p.2, isSep c = true)
    (line : Line) :
    tokenize ((pairs.flatMap fun p => p.1 ++ p.2) ++ line) = pairs.map Prod.fst ++ tokenize line := by
  induction pairs with
  | nil => rfl
  | cons p rest ih =>
    obtain ⟨⟨htoken, hchars, hseps, hsep⟩, hrest⟩ := List.forall_mem_cons.1 h
    rw [List.flatMap_cons, List.append_assoc, tokenize_append_seps_append _ _ hsep hseps, ih hrest,
      tokenize_token htoken hchars, List.map_cons]
    rfl

/-- A list of at most one token is what its text is cut into. -/
theorem tokenize_flatten_of_length_le_one {last : List Token} (hlen : last.length ≤ 1)
    (h : ∀ t ∈ last, t ≠ [] ∧ ∀ c ∈ t, isSep c = false) : tokenize last.flatten = last := by
  match last with
  | [] => rfl
  | [t] =>
    obtain ⟨hne, hchars⟩ := h t (List.mem_singleton.2 rfl)
    rw [List.flatten_singleton, tokenize_token hne hchars]

/-! ## Digits -/

theorem isDigit_iff (c : Byte) : isDigit c = true ↔ 0x30 ≤ c.toNat ∧ c.toNat ≤ 0x39 := by
  simp [isDigit]

theorem toNat_digitChar {d : Nat} (h : d < 10) : (digitChar d).toNat = 0x30 + d := by
  rw [digitChar, BitVec.toNat_ofNat, Nat.mod_eq_of_lt (by omega)]

theorem digitValue_digitChar {d : Nat} (h : d < 10) : digitValue (digitChar d) = d := by
  rw [digitValue, toNat_digitChar h, Nat.add_sub_cancel_left]

theorem digitChar_digitValue {c : Byte} (h : isDigit c = true) : digitChar (digitValue c) = c :=
  Machine.digitChar_sub c ((isDigit_iff c).1 h).1

/-- A text consists of digits exactly when it spells a list of numbers below 10. -/
theorem all_isDigit_iff (ds : Text) :
    ds.all isDigit = true ↔ ∃ digits : List Nat, (∀ d ∈ digits, d < 10) ∧ ds = digits.map digitChar := by
  rw [List.all_eq_true]
  constructor
  · intro h
    refine ⟨ds.map digitValue, fun d hd => ?_, ?_⟩
    · obtain ⟨c, hc, rfl⟩ := List.mem_map.1 hd
      have hrange := (isDigit_iff c).1 (h c hc)
      rw [digitValue]
      omega
    · rw [List.map_map]
      exact ((List.map_congr_left fun c hc => digitChar_digitValue (h c hc)).trans (List.map_id' ds)).symm
  · rintro ⟨digits, hlt, rfl⟩ c hc
    obtain ⟨d, hd, rfl⟩ := List.mem_map.1 hc
    have hd := hlt d hd
    rw [isDigit_iff, toNat_digitChar hd]
    omega

/-- The accumulation of R89 gives the base-10 value of the digits, of any number. -/
theorem decimalValue_map_digitChar {digits : List Nat} (h : ∀ d ∈ digits, d < 10) :
    decimalValue (digits.map digitChar) = Nat.ofDigits 10 digits.reverse := by
  rw [decimalValue, List.foldl_map, Nat.ofDigits_eq_foldr, List.foldr_reverse]
  refine List.foldl_ext _ _ _ fun v d hd => ?_
  rw [digitValue_digitChar (h d hd), Nat.add_comm]
  rfl

/-! ## Signs -/

/-- A text that spells a sign, and whether the sign is a minus (R64). -/
def IsSign (sign : Text) (minus : Bool) : Prop :=
  (minus = false ∧ (sign = [] ∨ sign = [0x2B#8])) ∨ (minus = true ∧ sign = [0x2D#8])

/-- `literalSign` takes a sign off the token and leaves the rest. -/
theorem exists_sign_of_literalSign (t : Token) :
    ∃ sign, IsSign sign (literalSign t).1 ∧ t = sign ++ (literalSign t).2 := by
  cases t with
  | nil => exact ⟨[], .inl ⟨rfl, .inl rfl⟩, rfl⟩
  | cons c cs =>
    rw [literalSign]
    split
    next hplus => exact ⟨[0x2B#8], .inl ⟨rfl, .inr rfl⟩, by rw [hplus]; rfl⟩
    next =>
      split
      next hminus => exact ⟨[0x2D#8], .inr ⟨rfl, rfl⟩, by rw [hminus]; rfl⟩
      next => exact ⟨[], .inl ⟨rfl, .inl rfl⟩, rfl⟩

/-- Before digits, `literalSign` takes off the whole sign and nothing else, since no digit is a sign. -/
theorem literalSign_append {sign : Text} {minus : Bool} (hsign : IsSign sign minus) {ds : Text} (hne : ds ≠ [])
    (hds : ds.all isDigit = true) : literalSign (sign ++ ds) = (minus, ds) := by
  rcases hsign with ⟨rfl, rfl | rfl⟩ | ⟨rfl, rfl⟩
  · obtain ⟨c, cs, rfl⟩ := List.exists_cons_of_ne_nil hne
    have hdigit := (isDigit_iff c).1 (List.all_eq_true.1 hds c List.mem_cons_self)
    have hplus : c ≠ 0x2B#8 := by rintro rfl; revert hdigit; decide
    have hminus : c ≠ 0x2D#8 := by rintro rfl; revert hdigit; decide
    rw [List.nil_append, literalSign, if_neg hplus, if_neg hminus]
  · rfl
  · rfl

/-! ## Literals -/

/-- The integer of a sign and the value of the digits behind it (R89). -/
def signedValue (minus : Bool) (n : Nat) : Int := if minus then -(n : Int) else n

/-- A token spells an integer exactly when digits stand behind its sign, and then their signed value (R89). -/
theorem readInteger_eq_some (t : Token) (v : Int) : readInteger t = some v ↔
    (literalSign t).2 ≠ [] ∧ (literalSign t).2.all isDigit = true ∧
      v = signedValue (literalSign t).1 (decimalValue (literalSign t).2) := by
  unfold readInteger signedValue
  by_cases hne : (literalSign t).2 = []
  · simp [hne]
  · cases hds : (literalSign t).2.all isDigit <;> cases (literalSign t).1 <;> simp [hne, eq_comm]

/-- A token spells an integer exactly when it is a sign and one or more digits (R64). -/
theorem readInteger_eq_some_iff_digits (t : Token) (v : Int) : readInteger t = some v ↔
    ∃ (sign : Text) (minus : Bool) (digits : List Nat), IsSign sign minus ∧ digits ≠ [] ∧ (∀ d ∈ digits, d < 10) ∧
      t = sign ++ digits.map digitChar ∧ v = signedValue minus (Nat.ofDigits 10 digits.reverse) := by
  rw [readInteger_eq_some]
  constructor
  · rintro ⟨hne, hds, hv⟩
    obtain ⟨sign, hsign, ht⟩ := exists_sign_of_literalSign t
    obtain ⟨digits, hlt, hdigits⟩ := (all_isDigit_iff _).1 hds
    refine ⟨sign, _, digits, hsign, ?_, hlt, by rw [← hdigits, ← ht], ?_⟩
    · rintro rfl; exact hne hdigits
    · rw [hv, hdigits, decimalValue_map_digitChar hlt]
  · rintro ⟨sign, minus, digits, hsign, hne, hlt, rfl, rfl⟩
    have hds : (digits.map digitChar).all isDigit = true := (all_isDigit_iff _).2 ⟨digits, hlt, rfl⟩
    have hne : digits.map digitChar ≠ [] := by rwa [Ne, List.map_eq_nil_iff]
    rw [literalSign_append hsign hne hds]
    exact ⟨hne, hds, by rw [decimalValue_map_digitChar hlt]⟩

end Sys2Proof

namespace Sys2Proof.Machine

/-! ## The obligations -/

/-- Settles O42: the front is dropped, then the pairs are cut off one by one. -/
theorem lineGrammarIsCutIntoItsTokens : Obligations.LineGrammarIsCutIntoItsTokens := by
  intro front pairs last hfront hpairs ⟨hlen, hlast⟩
  rw [List.append_assoc, tokenize_seps_append hfront, tokenize_pairs_append pairs hpairs,
    tokenize_flatten_of_length_le_one hlen hlast]

/-- Settles O43: separators cut a line where they stand, whichever and however many they are. -/
theorem separatorsAreInterchangeable : Obligations.SeparatorsAreInterchangeable := by
  intro a b seps c hc hseps
  have hsingle : ∀ d ∈ [c], isSep d = true := fun d hd => List.mem_singleton.1 hd ▸ hc
  refine ⟨fun hne => ?_, ?_, ?_⟩
  · simp only [encodeLine, tokenize_append_seps_append a b hseps hne,
      tokenize_append_seps_append a b hsingle (List.cons_ne_nil c [])]
  · simp only [encodeLine, tokenize_seps_append hseps]
  · by_cases hne : seps = []
    · rw [hne, List.append_nil]
    · exact encodeLine_append_seps a hseps hne

/-- Settles O46: the two clauses of the statement are the two kinds of sign. -/
theorem literalGrammar : Obligations.LiteralGrammar := by
  intro t v
  rw [readInteger_eq_some_iff_digits]
  constructor
  · rintro ⟨sign, minus, digits, hsign, hne, hlt, ht, hv⟩
    refine ⟨sign, digits, hne, hlt, ht, ?_⟩
    rcases hsign with ⟨rfl, hplus⟩ | ⟨rfl, hminus⟩
    · exact .inl ⟨hplus, hv⟩
    · exact .inr ⟨hminus, hv⟩
  · rintro ⟨sign, digits, hne, hlt, ht, ⟨hplus, hv⟩ | ⟨hminus, hv⟩⟩
    · exact ⟨sign, false, digits, .inl ⟨rfl, hplus⟩, hne, hlt, ht, hv⟩
    · exact ⟨sign, true, digits, .inr ⟨rfl, hminus⟩, hne, hlt, ht, hv⟩

end Sys2Proof.Machine
end

section
/-! SUPPORT. Proofs of the family 40_pipeline: what the Tokenizer keeps of a line, the instruction a line reads as, the
packed words as numbers, and the two renderings read back (R80 to R103). -/

namespace Sys2Proof

/-! ## What the Tokenizer keeps of a line -/

theorem mem_flushToken {t cur : Token} : t ∈ flushToken cur ↔ t = cur ∧ t ≠ [] := by
  by_cases hcur : cur = []
  · subst hcur
    simp
  · rw [flushToken_of_ne_nil hcur, List.mem_singleton]
    exact ⟨fun h => ⟨h, h ▸ hcur⟩, And.left⟩

theorem flatten_flushToken (cur : Token) : (flushToken cur).flatten = cur := by
  by_cases hcur : cur = []
  · rw [hcur]; rfl
  · rw [flushToken_of_ne_nil hcur, List.flatten_singleton]

/-- With the token in hand free of separators, the loop of R80 yields tokens only. -/
theorem isToken_of_mem_tokenizeFrom {cur : Token} (hcur : ∀ c ∈ cur, isSep c = false) {line : Line} {t : Token}
    (ht : t ∈ tokenizeFrom cur line) : Machine.IsToken t := by
  have hflush : ∀ u : Token, (∀ c ∈ u, isSep c = false) → t ∈ flushToken u → Machine.IsToken t := by
    intro u hu hmem
    obtain ⟨rfl, hne⟩ := mem_flushToken.1 hmem
    exact ⟨hne, hu⟩
  induction line generalizing cur with
  | nil => exact hflush cur hcur ht
  | cons c cs ih =>
    cases hc : isSep c with
    | true =>
      rw [tokenizeFrom_sep cur cs hc, List.mem_append] at ht
      exact ht.elim (hflush cur hcur) (ih (List.forall_mem_nil _))
    | false =>
      rw [tokenizeFrom_char cur cs hc] at ht
      exact ih (List.forall_mem_append.2 ⟨hcur, List.forall_mem_singleton.2 hc⟩) ht

/-- The loop of R80 yields the token in hand and then every character of the line that is no separator, in order. -/
theorem flatten_tokenizeFrom (cur : Token) (line : Line) :
    (tokenizeFrom cur line).flatten = cur ++ line.filter fun c => !isSep c := by
  induction line generalizing cur with
  | nil => rw [tokenizeFrom_nil, flatten_flushToken, List.filter_nil, List.append_nil]
  | cons c cs ih =>
    cases hc : isSep c with
    | true =>
      rw [tokenizeFrom_sep cur cs hc, List.flatten_append, flatten_flushToken, ih, List.nil_append,
        List.filter_cons_of_neg (by simp [hc])]
    | false =>
      rw [tokenizeFrom_char cur cs hc, ih, List.filter_cons_of_pos (by simp [hc]), List.append_assoc,
        List.singleton_append]

/-- A line of separators only has no token (R83). -/
theorem tokenize_of_seps {line : Line} (h : ∀ c ∈ line, isSep c = true) : tokenize line = [] := by
  rw [← List.append_nil line, tokenize_seps_append h]
  rfl

/-! ## The instruction a line reads as -/

/-- The mnemonic table holds, at an instruction's mnemonic, what builds it from its operands (R84, R85). -/
theorem mnemonicTable_key (i : Instr) :
    ∃ build, tableLookup mnemonicTable i.key = some build ∧ build i.ops = i := by
  cases i with
  | add ops | mult ops | lw ops | sw ops | halt ops | addi ops | addui ops | bz ops | bp ops | put ops =>
    exact ⟨_, rfl, rfl⟩

/-- A line that is cut into an instruction's mnemonic and its operands reads as that instruction. -/
theorem parseLine_of_tokenize {line : Line} {i : Instr} (h : tokenize line = i.key :: i.ops) :
    parseLine line = .ok i := by
  obtain ⟨build, hlookup, hbuild⟩ := mnemonicTable_key i
  rw [parseLine, h, mnemonicOf, List.headD_cons, hlookup]
  exact congrArg Except.ok hbuild

/-- A line that reads as an instruction is cut into its mnemonic and its operands: no mnemonic is the empty string that
stands for the first token of a line without tokens (R83). -/
theorem tokenize_of_parseLine {line : Line} {i : Instr} (h : parseLine line = .ok i) :
    tokenize line = i.key :: i.ops := by
  rcases parseLine_cases line with ⟨j, hj, hkey, hops⟩ | ⟨herror, -⟩
  · cases hj.symm.trans h
    rw [hops, hkey]
    cases htoks : tokenize line with
    | nil =>
      rw [htoks] at hkey
      exact absurd hkey (key_ne_nil i)
    | cons t rest => rfl
  · cases herror.symm.trans h

/-! ## Digits of a numeral -/

theorem digitValue_bit (b : Bool) : digitValue (if b then 0x31#8 else 0x30#8) = b.toNat := by
  cases b <;> rfl

/-- Taking in one more bit doubles the number of the bits above and adds the bit. -/
theorem div_two_pow_eq_double_add_testBit (n i : Nat) :
    n / 2 ^ i = 2 * (n / 2 ^ (i + 1)) + (n.testBit i).toNat := by
  rw [Nat.toNat_testBit, Nat.pow_succ, ← Nat.div_div_eq_div_mul]
  exact (Nat.div_add_mod _ 2).symm

end Sys2Proof

namespace Sys2Proof.Machine

/-! ## The delivery of a response -/

/-- A delivery takes the oldest request off the queue, and nothing but the queue and the response changes (R16). -/
theorem deliver_of_requests {s : State} {line : Line} {rest : List Line} (h : s.requests = line :: rest) (r : Result) :
    s.deliver r = { s with requests := rest, response := some r } := by
  rw [State.deliver, h, List.tail_cons]

/-! ## The unsigned bit -/

theorem unsignedFlag_getLsbD (m : Token) : (unsignedFlag m).getLsbD 0 = true ↔ m = keyAddui := by
  unfold unsignedFlag
  split <;> simp_all

/-- Bit 8 of an I-type entry's constant bits is the unsigned flag, and the entry's words all have these bits (R92). -/
theorem getLsbD_eight_of_iType {m : Token} {e : InstructionSpec} (hformat : e.format = .iType) {ops : List Token}
    {w : Word} (h : encodeEntry m e ops = .ok w) : w.getLsbD 8 = (unsignedFlag m).getLsbD 0 := by
  have hmask : (entryMask e.form).getLsbD 8 = true ∧ (entryBase m e).getLsbD 8 = (unsignedFlag m).getLsbD 0 := by
    obtain ⟨op, form⟩ := e
    cases form with
    | rTwo subop | rNone subop => cases hformat
    | iTwo | iOne => exact ⟨by simp [entryMask], getLsbD_packI op 0#3 (unsignedFlag m) 0#8 8⟩
  obtain ⟨hbit, hflag⟩ := hmask
  rcases encodeEntry_cases m e ops with ⟨v, hok, hv⟩ | ⟨err, herr, -⟩
  · cases hok.symm.trans h
    rw [getLsbD_of_and_mask hv 8 hbit, BitVec.getLsbD_and, hbit, Bool.and_true, hflag]
  · cases herr.symm.trans h

/-- The word that an `Ok` of the whole operation carries is the word of its table entry. -/
theorem encodeEntry_of_encodeTokens {m : Token} {e : InstructionSpec} (hentry : isetLookup m = some e)
    {ops : List Token} {w : Word} {bin hex : Text} (h : encodeTokens m ops = .ok w bin hex) :
    encodeEntry m e ops = .ok w := by
  rw [encodeTokens_of_entry hentry] at h
  cases hres : encodeEntry m e ops with
  | ok v =>
    rw [hres] at h
    cases h
    rfl
  | error err =>
    rw [hres] at h
    cases h

/-! ## The binary string as a numeral -/

/-- The first `k` characters of the binary string spell the number of the word's `k` most significant bits (R98). -/
theorem binValue_leading_bits (w : Word) {k : Nat} (hk : k ≤ 16) :
    binValue ((List.range k).map fun i => if w.getLsbD (15 - i) then 0x31#8 else 0x30#8) =
      w.toNat / 2 ^ (16 - k) := by
  induction k with
  | zero => exact (Nat.div_eq_of_lt w.isLt).symm
  | succ k ih =>
    have hshift : 16 - k = 15 - k + 1 := by omega
    have hsucc : 16 - (k + 1) = 15 - k := by omega
    have ih := ih (by omega)
    rw [binValue] at ih ⊢
    rw [List.range_succ, List.map_append, List.foldl_append, ih, List.map_singleton, List.foldl_cons, List.foldl_nil,
      digitValue_bit, hshift, hsucc, div_two_pow_eq_double_add_testBit w.toNat (15 - k), BitVec.testBit_toNat]

/-! ## The obligations -/

/-- Settles O2: either side says that the line is cut into the instruction's mnemonic and its operands. -/
theorem lineReadsAsItsMnemonicsInstruction : Obligations.LineReadsAsItsMnemonicsInstruction := by
  intro line i
  constructor
  · intro h
    rw [tokenize_of_parseLine h]
    exact ⟨rfl, rfl⟩
  · rintro ⟨hhead, hops⟩
    exact parseLine_of_tokenize (by rw [hops]; exact List.eq_cons_of_mem_head? hhead)

/-- Settles O29: the delivery of the operation's result, with the whole next state written out. -/
theorem stepAnswersWithTheWholeOperation : Obligations.StepAnswersWithTheWholeOperation := by
  intro s line rest hreq
  rw [step_of_request hreq, deliver_of_requests hreq]

/-- Settles O4: the mnemonic of a line without tokens is the empty string, which is no key of `ISET`. -/
theorem lineWithoutTokenIsAnError : Obligations.LineWithoutTokenIsAnError := by
  intro s line rest hreq hseps
  have habsent : isetLookup (mnemonicOf []) = none := by decide
  rw [stepAnswersWithTheWholeOperation s line rest hreq, encodeLine, tokenize_of_seps hseps,
    encodeTokens_of_absent habsent]
  rfl

/-- Settles O40: the Tokenizer starts with no token in hand. -/
theorem tokensAreNonEmptyAndSeparatorFree : Obligations.TokensAreNonEmptyAndSeparatorFree :=
  fun _ _ => isToken_of_mem_tokenizeFrom (List.forall_mem_nil _)

/-- Settles O41: the Tokenizer starts with no token in hand. -/
theorem tokensHoldTheOtherCharactersInOrder : Obligations.TokensHoldTheOtherCharactersInOrder :=
  flatten_tokenizeFrom []

/-- Settles O49: bit 8 of an I-type word is the unsigned flag of its mnemonic. -/
theorem unsignedBitIsSetExactlyForAddui : Obligations.UnsignedBitIsSetExactlyForAddui := by
  intro m ops e w bin hex hentry hformat hres
  rw [getLsbD_eight_of_iType hformat (encodeEntry_of_encodeTokens hentry hres)]
  exact unsignedFlag_getLsbD m

/-- Settles O50. -/
theorem hexRenderingReadsBack : Obligations.HexRenderingReadsBack :=
  fun w => ⟨rfl, List.all_eq_true.1 (renderHex_all_isUpperHex w), hexValue_renderHex w⟩

/-- Settles O51: all sixteen characters together spell the whole word. -/
theorem binaryRenderingReadsBack : Obligations.BinaryRenderingReadsBack := by
  intro w
  refine ⟨?_, fun i hi => ?_, ?_⟩
  · rw [renderBin, List.length_map, List.length_range]
    rfl
  · rw [renderBin, List.getElem?_map, Config.wordBits, List.getElem?_range hi, Option.map_some]
  · exact (binValue_leading_bits w le_rfl).trans (Nat.div_one _)

/-- Settles O1: the step's branch for a line that reads as an instruction is `exec` alone. -/
theorem stepRunsTheDecodedInstruction : Obligations.StepRunsTheDecodedInstruction := by
  intro s line rest i hreq hparse
  simp only [step, hreq, hparse]

/-- Settles O47: each field stands at the weight of the positions to its right. -/
theorem packRIsTheLayout : Obligations.PackRIsTheLayout := by
  intro opcode rs rt subop
  simp only [packR, toNat_append_eq, BitVec.extractLsb'_toNat, BitVec.toNat_ofNat]
  omega

/-- Settles O48: each field stands at the weight of the positions to its right. -/
theorem packIIsTheLayout : Obligations.PackIIsTheLayout := by
  intro opcode rs u imm
  simp only [packI, toNat_append_eq]
  omega

end Sys2Proof.Machine
end

section
/-! SUPPORT. Proofs of the family 41_rtype: the rules of the R-type instructions (R120 to R124), and what follows of
them for the instructions without a literal. -/

namespace Sys2Proof.Machine

/-! ## Register tokens and their indices -/

theorem registerIndex_of_rtabLookup {t : Token} {c : RegCode} (h : rtabLookup t = some c) :
    registerIndex t = some c.toNat := by
  rw [rtabLookup_some h, registerIndex_regToken]

theorem registerIndex_of_absent {t : Token} (h : rtabLookup t = none) : registerIndex t = none := by
  rwa [rtabLookup_eq_registerIndex, Option.map_eq_none_iff] at h

/-! ## The words of two registers -/

theorem packR_eq_ofNat (op : Opcode) (rs rt : RegCode) (subop : BitVec 3) :
    packR op rs rt subop =
      BitVec.ofNat 16 (4096 * op.toNat + subop.toNat % 2 + 512 * rs.toNat + 64 * rt.toNat) := by
  apply BitVec.eq_of_toNat_eq
  rw [packRIsTheLayout, BitVec.toNat_ofNat]
  omega

/-- The sub-opcode bit is the last bit of the word (R51). -/
theorem packR_one_eq_xor (op : Opcode) (rs rt : RegCode) : packR op rs rt 1#3 = packR op rs rt 0#3 ^^^ 1#16 := by
  apply BitVec.eq_of_getLsbD_eq
  intro i hi
  rw [BitVec.getLsbD_xor, getLsbD_packR, getLsbD_packR]
  interval_cases i <;> simp

theorem packR_one_eq_add (op : Opcode) (rs rt : RegCode) : packR op rs rt 1#3 = packR op rs rt 0#3 + 1#16 := by
  apply BitVec.eq_of_toNat_eq
  rw [BitVec.toNat_add, packRIsTheLayout, packRIsTheLayout]
  simp only [BitVec.toNat_ofNat]
  omega

theorem encodeTwoRegs_eq_ok {op : Opcode} {subop : BitVec 3} {ops : List Token} {w : Word} :
    encodeTwoRegs op subop ops = .ok w ↔ ∃ rs rt, twoRegisters ops = .ok (rs, rt) ∧ w = packR op rs rt subop := by
  unfold encodeTwoRegs
  cases twoRegisters ops with
  | ok regs => simp [Prod.ext_iff, eq_comm]
  | error e => simp

/-! ## The outcomes of the rules -/

/-- Encoding two register operands has the outcome of R120 to R123, whose base is the opcode and the sub-opcode bit at
their weights. -/
theorem resultOf_encodeTwoRegs (op : Opcode) (subop : BitVec 3) (ops : List Token) :
    resultOf (encodeTwoRegs op subop ops) = ruleTwoRegisters (4096 * op.toNat + subop.toNat % 2) ops := by
  unfold encodeTwoRegs
  rcases twoRegisters_cases ops with
    ⟨hlen, h⟩ | ⟨a, b, rfl, ha, h⟩ | ⟨a, b, rs, rfl, ha, hb, h⟩ | ⟨a, b, rs, rt, rfl, ha, hb, h⟩
  · rw [h]
    match ops with
    | [] | [_] | _ :: _ :: _ :: _ => rfl
    | [_, _] => exact absurd rfl hlen
  · simp [h, ruleTwoRegisters, registerIndex_of_absent ha, resultOf]
  · simp [h, ruleTwoRegisters, registerIndex_of_rtabLookup ha, registerIndex_of_absent hb, resultOf]
  · simp [h, ruleTwoRegisters, registerIndex_of_rtabLookup ha, registerIndex_of_rtabLookup hb, resultOf, okValue,
      packR_eq_ofNat]

/-- The mnemonic of a two-register entry has the outcome of R120 to R123 on every operand list. -/
theorem encodeTokens_of_rTwo {m : Token} {op : Opcode} {subop : BitVec 3}
    (hentry : isetLookup m = some ⟨op, .rTwo subop⟩) (ops : List Token) :
    encodeTokens m ops = ruleTwoRegisters (4096 * op.toNat + subop.toNat % 2) ops := by
  rw [encodeTokens_of_entry hentry]
  exact resultOf_encodeTwoRegs op subop ops

/-- The mnemonic of an R-type entry without operands has the outcome of R124 on every operand list. -/
theorem encodeTokens_of_rNone {m : Token} {op : Opcode} {subop : BitVec 3}
    (hentry : isetLookup m = some ⟨op, .rNone subop⟩) (ops : List Token) :
    encodeTokens m ops = ruleNoOperand (4096 * op.toNat + subop.toNat % 2) ops := by
  rw [encodeTokens_of_entry hentry]
  cases ops with
  | nil => exact congrArg okResult (packR_eq_ofNat op 0#3 0#3 subop)
  | cons a rest => rfl

theorem exec_of_rTwo {i : Instr} {op : Opcode} {subop : BitVec 3}
    (hentry : isetLookup i.key = some ⟨op, .rTwo subop⟩) (s : State) :
    exec i s = .next (s.deliver (ruleTwoRegisters (4096 * op.toNat + subop.toNat % 2) i.ops)) := by
  rw [exec_eq_deliver, encodeTokens_of_rTwo hentry]

theorem exec_of_rNone {i : Instr} {op : Opcode} {subop : BitVec 3}
    (hentry : isetLookup i.key = some ⟨op, .rNone subop⟩) (s : State) :
    exec i s = .next (s.deliver (ruleNoOperand (4096 * op.toNat + subop.toNat % 2) i.ops)) := by
  rw [exec_eq_deliver, encodeTokens_of_rNone hentry]

theorem ruleTwoRegisters_regToken (base : Nat) (a b : RegCode) :
    ruleTwoRegisters base [regToken a, regToken b] = okValue (base + 512 * a.toNat + 64 * b.toNat) := by
  simp only [ruleTwoRegisters, registerIndex_regToken]

theorem eq_nil_of_ruleNoOperand {base : Nat} {ops : List Token} {w : Word} {bin hex : Text}
    (h : ruleNoOperand base ops = .ok w bin hex) : ops = [] := by
  cases ops with
  | nil => rfl
  | cons a rest => cases h

/-! ## The constant bits of the words -/

/-- The word that an `Ok` of a mnemonic carries has the constant bits of the mnemonic's entry (R57). -/
theorem and_entryMask_of_encodeTokens {m : Token} {e : InstructionSpec} (hentry : isetLookup m = some e)
    {ops : List Token} {w : Word} {bin hex : Text} (h : encodeTokens m ops = .ok w bin hex) :
    w &&& entryMask e.form = entryBase m e &&& entryMask e.form := by
  have hok := encodeEntry_of_encodeTokens hentry h
  rcases encodeEntry_cases m e ops with ⟨v, hv, hmask⟩ | ⟨err, herr, -⟩
  · cases hv.symm.trans hok
    exact hmask
  · cases herr.symm.trans hok

/-- A word of R120 to R123 has the opcode and the sub-opcode bit of its entry and zeros in the shamt field. -/
theorem and_mask_of_ruleTwoRegisters {m : Token} {op : Opcode} {subop : BitVec 3}
    (hentry : isetLookup m = some ⟨op, .rTwo subop⟩) {ops : List Token} {w : Word} {bin hex : Text}
    (h : ruleTwoRegisters (4096 * op.toNat + subop.toNat % 2) ops = .ok w bin hex) :
    w &&& 0xF03F#16 = packR op 0#3 0#3 subop &&& 0xF03F#16 :=
  and_entryMask_of_encodeTokens hentry ((encodeTokens_of_rTwo hentry ops).trans h)

/-- Bit 0 of an R-type word is the low bit of the entry's sub-opcode (R96). -/
theorem getLsbD_zero_of_rType {m : Token} {e : InstructionSpec} (hentry : isetLookup m = some e)
    (hformat : e.format = .rType) {ops : List Token} {w : Word} {bin hex : Text}
    (h : encodeTokens m ops = .ok w bin hex) : ∃ b, e.subop = some b ∧ w.getLsbD 0 = b.getLsbD 0 := by
  have hmask := and_entryMask_of_encodeTokens hentry h
  obtain ⟨op, form⟩ := e
  cases form with
  | rTwo subop | rNone subop =>
    refine ⟨subop, rfl, ?_⟩
    rw [getLsbD_of_and_mask hmask 0 (by simp [entryMask]), BitVec.getLsbD_and, entryBase, getLsbD_packR]
    simp [entryMask]
  | iTwo | iOne => cases hformat

/-- The entry of `sw` is the only one whose sub-opcode bit is 1 (R123). -/
theorem subop_bit_iff_sw {m : Token} {e : InstructionSpec} (hentry : isetLookup m = some e) :
    (∃ b, e.subop = some b ∧ b.getLsbD 0 = true) ↔ m = keySw := by
  have hbit : ∀ entry ∈ iset, (entry.2.subop.any fun b => b.getLsbD 0) = true ↔ entry.1 = keySw := by decide
  rw [← hbit (m, e) ((isetLookup_eq_some_iff_mem m e).1 hentry), Option.any_eq_true]

/-! ## Neighbouring mnemonics -/

/-- Where `lw` has a word, `sw` has the word with the same registers and the sub-opcode bit set. -/
theorem encodeTokens_sw_of_lw {ops : List Token} {w : Word} {bin hex : Text}
    (h : encodeTokens keyLw ops = .ok w bin hex) :
    ∃ rs rt, w = packR 0b0110#4 rs rt 0#3 ∧ encodeTokens keySw ops = okResult (packR 0b0110#4 rs rt 1#3) := by
  have hlw : encodeTwoRegs 0b0110#4 0#3 ops = .ok w :=
    encodeEntry_of_encodeTokens (e := ⟨0b0110#4, .rTwo 0#3⟩) rfl h
  obtain ⟨rs, rt, hregs, hw⟩ := encodeTwoRegs_eq_ok.1 hlw
  have hsw : encodeEntry keySw ⟨0b0110#4, .rTwo 1#3⟩ ops = .ok (packR 0b0110#4 rs rt 1#3) :=
    encodeTwoRegs_eq_ok.2 ⟨rs, rt, hregs, rfl⟩
  exact ⟨rs, rt, hw, by rw [encodeTokens_of_entry rfl, hsw, resultOf]⟩

/-- A line with the word of `halt` has the mnemonic `halt`: no other row of R57 covers the word. -/
theorem mnemonicOf_of_halt_word {m : Token} {ops : List Token} {bin hex : Text}
    (h : encodeTokens m ops = .ok 0x7000#16 bin hex) : m = keyHalt := by
  obtain ⟨p, hp, rfl, hw⟩ := exists_row_of_encodeTokens h
  have hhalt : (keyHalt, 0x7000#16, 0xFFFF#16) ∈ rowTable := by simp [rowTable]
  rw [rowsAreDisjoint 0x7000#16 p hp _ hhalt hw rfl]

theorem tokens_of_mnemonicOf_ne_nil {toks : List Token} (h : mnemonicOf toks ≠ []) :
    toks = mnemonicOf toks :: toks.tail := by
  cases toks with
  | nil => exact absurd rfl h
  | cons t rest => rfl

/-! ## The obligations -/

/-- Settles O14. -/
theorem addFollowsItsRule : Obligations.AddFollowsItsRule :=
  ⟨rfl, fun ops s => exec_of_rTwo (i := .add ops) rfl s,
    fun _ _ _ _ h => and_mask_of_ruleTwoRegisters (m := keyAdd) rfl h⟩

/-- Settles O15: `mul` is no key of `ISET`. -/
theorem multFollowsItsRule : Obligations.MultFollowsItsRule :=
  ⟨rfl, fun ops s => exec_of_rTwo (i := .mult ops) rfl s,
    fun _ _ _ _ h => and_mask_of_ruleTwoRegisters (m := keyMult) rfl h,
    encodeTokens_of_absent (by decide)⟩

/-- Settles O16: the words of `lw` and `sw` differ in the sub-opcode bit. -/
theorem lwFollowsItsRule : Obligations.LwFollowsItsRule := by
  refine ⟨rfl, fun ops s => exec_of_rTwo (i := .lw ops) rfl s, fun ops w bin hex => ⟨fun h => ?_, fun h => ?_⟩⟩
  · exact and_mask_of_ruleTwoRegisters (m := keyLw) rfl h
  · obtain ⟨rs, rt, rfl, hsw⟩ := encodeTokens_sw_of_lw h
    rw [hsw, packR_one_eq_xor]

/-- Settles O17: the last bit of an R-type word is the sub-opcode bit of its entry, which only `sw` has set. -/
theorem swFollowsItsRule : Obligations.SwFollowsItsRule := by
  refine ⟨rfl, fun ops s => exec_of_rTwo (i := .sw ops) rfl s, fun ops w bin hex => ⟨fun h => ?_, fun h => ?_⟩,
    fun m e hentry => ⟨subop_bit_iff_sw hentry, fun ops w bin hex hformat h => ?_⟩⟩
  · exact and_mask_of_ruleTwoRegisters (m := keySw) rfl h
  · obtain ⟨rs, rt, rfl, hsw⟩ := encodeTokens_sw_of_lw h
    rw [hsw, packR_one_eq_add]
  · obtain ⟨b, hsubop, hbit⟩ := getLsbD_zero_of_rType hentry hformat h
    rw [← subop_bit_iff_sw hentry, hbit]
    simp [hsubop]

/-- Settles O18: a line with the word 0x7000 has the mnemonic `halt`, which has a word without operands only. -/
theorem haltFollowsItsRule : Obligations.HaltFollowsItsRule := by
  refine ⟨rfl, fun ops s => exec_of_rNone (i := .halt ops) rfl s, fun line bin hex h => ?_⟩
  rw [encodeLine] at h
  have hhalt : mnemonicOf (tokenize line) = keyHalt := mnemonicOf_of_halt_word h
  rw [hhalt, encodeTokens_of_rNone rfl] at h
  have hne : mnemonicOf (tokenize line) ≠ [] := hhalt ▸ key_ne_nil (.halt [])
  rw [tokens_of_mnemonicOf_ne_nil hne, hhalt, eq_nil_of_ruleNoOperand h]
  rfl

/-- Settles O24: the rule of each of the four on two register tokens. -/
theorem registerPairInstructionsComplete : Obligations.RegisterPairInstructionsComplete := by
  intro a b s
  obtain ⟨-, hadd, -⟩ := addFollowsItsRule
  obtain ⟨-, hmult, -⟩ := multFollowsItsRule
  obtain ⟨-, hlw, -⟩ := lwFollowsItsRule
  obtain ⟨-, hsw, -⟩ := swFollowsItsRule
  rw [hadd, hmult, hlw, hsw]
  simp only [ruleTwoRegisters_regToken, Nat.zero_add, and_self]

/-- Settles O33: the first step takes the failed or answered request off the queue, and the second answers the next
line. -/
theorem nextRequestIsUnaffected : Obligations.NextRequestIsUnaffected := by
  intro s line next rest hreq
  have hnext : (s.deliver (encodeLine line)).requests = next :: rest := by rw [deliver_requests, hreq, List.tail_cons]
  exact ⟨_, _, step_of_request hreq, step_of_request hnext, deliver_response _ _,
    by rw [deliver_requests, hnext, List.tail_cons]⟩

/-- Settles O25: `halt` by its rule, `put` by the encoder's word with immediate 0. -/
theorem haltAndPutComplete : Obligations.HaltAndPutComplete := by
  intro a s
  obtain ⟨-, hhalt, -⟩ := haltFollowsItsRule
  refine ⟨hhalt [] s, ?_⟩
  have hword : encode (.put [regToken a]) = some (placeImm 0xF000#16 a 0#8) := encodeReg_eq_some.2 ⟨a, rfl, rfl⟩
  rw [exec_of_encode hword, placeImm_eq_ofNat (pattern := 0xF000#16) rfl a (Nat.zero_le 255)]
  rfl

end Sys2Proof.Machine
end

section
/-! SUPPORT. Proofs of the family 42_itype: the rules of the I-type instructions (R130 to R134). -/

namespace Sys2Proof.Machine

/-! ## The words of a register and an immediate -/

theorem packI_eq_ofNat (op : Opcode) (rs : RegCode) (u : BitVec 1) (imm : BitVec 8) :
    packI op rs u imm = BitVec.ofNat 16 (4096 * op.toNat + 256 * u.toNat + 512 * rs.toNat + imm.toNat) := by
  apply BitVec.eq_of_toNat_eq
  rw [packIIsTheLayout, BitVec.toNat_ofNat]
  omega

/-! ## The two operands of the rules -/

theorem ruleRegisterLiteral_of_no_register (base : Nat) {a b : Token} (ha : rtabLookup a = none) :
    ruleRegisterLiteral base [a, b] = .err ⟨.unknownRegister, .operand1, a⟩ := by
  simp only [ruleRegisterLiteral, registerIndex_of_absent ha]

/-- Operand 2 without an immediate, for whichever of the two reasons of R143, is the error of the rules. -/
theorem ruleRegisterLiteral_of_no_immediate (base : Nat) {a b : Token} {rs : RegCode} (ha : rtabLookup a = some rs)
    (hb : immediateOf b = none) :
    ruleRegisterLiteral base [a, b] = .err ⟨.malformedImmediate, .operand2, b⟩ := by
  have hrange := (immediateOf_eq_none b).1 hb
  cases hread : readInteger b with
  | none => simp only [ruleRegisterLiteral, registerIndex_of_rtabLookup ha, hread]
  | some v => simp only [ruleRegisterLiteral, registerIndex_of_rtabLookup ha, hread, if_pos (hrange v hread)]

/-- Operand 2 with an immediate enters the word of the rules with its value as written. -/
theorem ruleRegisterLiteral_of_immediate (base : Nat) {a b : Token} {rs : RegCode} {imm : BitVec 8}
    (ha : rtabLookup a = some rs) (hb : immediateOf b = some imm) :
    ruleRegisterLiteral base [a, b] = okValue (base + 512 * rs.toNat + imm.toNat) := by
  have hread := (immediateOf_eq_some b imm).1 hb
  have hrange : ¬((imm.toNat : Int) < 0 ∨ 255 < (imm.toNat : Int)) := by omega
  simp only [ruleRegisterLiteral, registerIndex_of_rtabLookup ha, hread, if_neg hrange, Int.toNat_natCast]

/-! ## The outcomes of the rules -/

/-- Encoding a register and a literal has the outcome of R130 to R133, whose base is the opcode and the unsigned flag
at their weights. -/
theorem resultOf_encodeRegImm (op : Opcode) (u : BitVec 1) (ops : List Token) :
    resultOf (encodeRegImm op u ops) = ruleRegisterLiteral (4096 * op.toNat + 256 * u.toNat) ops := by
  unfold encodeRegImm
  rcases registerAndLiteral_cases ops with
    ⟨hlen, h⟩ | ⟨a, b, rfl, ha, h⟩ | ⟨a, b, rs, rfl, ha, hb, h⟩ | ⟨a, b, rs, imm, rfl, ha, hb, h⟩
  · rw [h]
    match ops with
    | [] | [_] | _ :: _ :: _ :: _ => rfl
    | [_, _] => exact absurd rfl hlen
  · rw [h, ruleRegisterLiteral_of_no_register _ ha, resultOf]
  · rw [h, ruleRegisterLiteral_of_no_immediate _ ha hb, resultOf]
  · simp only [h, ruleRegisterLiteral_of_immediate _ ha hb, resultOf, okValue, packI_eq_ofNat]

/-- Encoding one register has the outcome of R134: the immediate field adds nothing. -/
theorem resultOf_encodeOneReg (op : Opcode) (u : BitVec 1) (ops : List Token) :
    resultOf (encodeOneReg op u ops) = ruleOneRegister (4096 * op.toNat + 256 * u.toNat) ops := by
  unfold encodeOneReg
  rcases oneRegister_cases ops with ⟨hlen, h⟩ | ⟨a, rfl, ha, h⟩ | ⟨a, rs, rfl, ha, h⟩
  · rw [h]
    match ops with
    | [] | _ :: _ :: _ => rfl
    | [_] => exact absurd rfl hlen
  · simp only [h, ruleOneRegister, registerIndex_of_absent ha, resultOf]
  · simp only [h, ruleOneRegister, registerIndex_of_rtabLookup ha, resultOf, okValue, packI_eq_ofNat,
      BitVec.toNat_zero, Nat.add_zero]

/-- The mnemonic of an entry with a register and an immediate has the outcome of R130 to R133 on every operand
list. -/
theorem encodeTokens_of_iTwo {m : Token} {op : Opcode} (hentry : isetLookup m = some ⟨op, .iTwo⟩)
    (ops : List Token) :
    encodeTokens m ops = ruleRegisterLiteral (4096 * op.toNat + 256 * (unsignedFlag m).toNat) ops := by
  rw [encodeTokens_of_entry hentry]
  exact resultOf_encodeRegImm op (unsignedFlag m) ops

/-- The mnemonic of an I-type entry with a register only has the outcome of R134 on every operand list. -/
theorem encodeTokens_of_iOne {m : Token} {op : Opcode} (hentry : isetLookup m = some ⟨op, .iOne⟩)
    (ops : List Token) :
    encodeTokens m ops = ruleOneRegister (4096 * op.toNat + 256 * (unsignedFlag m).toNat) ops := by
  rw [encodeTokens_of_entry hentry]
  exact resultOf_encodeOneReg op (unsignedFlag m) ops

theorem exec_of_iTwo {i : Instr} {op : Opcode} (hentry : isetLookup i.key = some ⟨op, .iTwo⟩) (s : State) :
    exec i s =
      .next (s.deliver (ruleRegisterLiteral (4096 * op.toNat + 256 * (unsignedFlag i.key).toNat) i.ops)) := by
  rw [exec_eq_deliver, encodeTokens_of_iTwo hentry]

theorem exec_of_iOne {i : Instr} {op : Opcode} (hentry : isetLookup i.key = some ⟨op, .iOne⟩) (s : State) :
    exec i s =
      .next (s.deliver (ruleOneRegister (4096 * op.toNat + 256 * (unsignedFlag i.key).toNat) i.ops)) := by
  rw [exec_eq_deliver, encodeTokens_of_iOne hentry]

/-! ## The constant bits of the words -/

/-- A word of R130 to R133 has the opcode of its entry and the unsigned flag of its mnemonic. -/
theorem and_mask_of_ruleRegisterLiteral {m : Token} {op : Opcode} (hentry : isetLookup m = some ⟨op, .iTwo⟩)
    {ops : List Token} {w : Word} {bin hex : Text}
    (h : ruleRegisterLiteral (4096 * op.toNat + 256 * (unsignedFlag m).toNat) ops = .ok w bin hex) :
    w &&& 0xF100#16 = packI op 0#3 (unsignedFlag m) 0#8 &&& 0xF100#16 :=
  and_entryMask_of_encodeTokens hentry ((encodeTokens_of_iTwo hentry ops).trans h)

/-- A word of R134 has, beside the opcode and the unsigned flag, zeros in the immediate field. -/
theorem and_mask_of_ruleOneRegister {m : Token} {op : Opcode} (hentry : isetLookup m = some ⟨op, .iOne⟩)
    {ops : List Token} {w : Word} {bin hex : Text}
    (h : ruleOneRegister (4096 * op.toNat + 256 * (unsignedFlag m).toNat) ops = .ok w bin hex) :
    w &&& 0xF1FF#16 = packI op 0#3 (unsignedFlag m) 0#8 &&& 0xF1FF#16 :=
  and_entryMask_of_encodeTokens hentry ((encodeTokens_of_iOne hentry ops).trans h)

/-! ## Neighbouring mnemonics -/

/-- The base decides nothing but the word: an operand list has one error over every base, or over every base the word
with the same register and literal (R130 to R133). -/
theorem ruleRegisterLiteral_cases (ops : List Token) :
    (∃ e, ∀ base, ruleRegisterLiteral base ops = .err e) ∨
    (∃ n, ∀ base, ruleRegisterLiteral base ops = okValue (base + n)) := by
  match ops with
  | [] | [_] | _ :: _ :: _ :: _ => exact .inl ⟨countError, fun _ => rfl⟩
  | [a, b] =>
    cases ha : rtabLookup a with
    | none => exact .inl ⟨_, fun base => ruleRegisterLiteral_of_no_register base ha⟩
    | some rs =>
      cases hb : immediateOf b with
      | none => exact .inl ⟨_, fun base => ruleRegisterLiteral_of_no_immediate base ha hb⟩
      | some imm =>
        refine .inr ⟨512 * rs.toNat + imm.toNat, fun base => ?_⟩
        rw [ruleRegisterLiteral_of_immediate base ha hb, Nat.add_assoc]

/-- Where the rule over one base has a word, the rule over a greater base has that word plus the difference. -/
theorem ruleRegisterLiteral_add_base {base : Nat} {ops : List Token} {w : Word} {bin hex : Text}
    (h : ruleRegisterLiteral base ops = .ok w bin hex) (k : Nat) :
    ruleRegisterLiteral (base + k) ops = okResult (w + BitVec.ofNat 16 k) := by
  rcases ruleRegisterLiteral_cases ops with ⟨e, herr⟩ | ⟨n, hok⟩
  · cases (herr base).symm.trans h
  · cases (hok base).symm.trans h
    rw [hok, okValue, Nat.add_right_comm, BitVec.ofNat_add]

/-! ## The obligations -/

/-- Settles O19. -/
theorem addiFollowsItsRule : Obligations.AddiFollowsItsRule :=
  ⟨rfl, fun ops s => exec_of_iTwo (i := .addi ops) rfl s,
    fun _ _ _ _ h => and_mask_of_ruleRegisterLiteral (m := keyAddi) rfl h⟩

/-- Settles O20: the base of `addui` is that of `addi` plus the unsigned bit, which no other mnemonic sets; `addiu` is
no key of `ISET`. -/
theorem adduiFollowsItsRule : Obligations.AdduiFollowsItsRule := by
  refine ⟨rfl, fun ops s => exec_of_iTwo (i := .addui ops) rfl s, fun ops w bin hex => ⟨fun h => ?_, fun h => ?_⟩,
    fun m ops e w bin hex hentry hformat h => (unsignedBitIsSetExactlyForAddui m ops e w bin hex hentry hformat h).1,
    encodeTokens_of_absent (by decide)⟩
  · exact and_mask_of_ruleRegisterLiteral (m := keyAddui) rfl h
  · rw [encodeTokens_of_iTwo rfl] at h ⊢
    exact ruleRegisterLiteral_add_base h 0x0100

/-- Settles O21. -/
theorem bzFollowsItsRule : Obligations.BzFollowsItsRule :=
  ⟨rfl, fun ops s => exec_of_iTwo (i := .bz ops) rfl s,
    fun _ _ _ _ h => and_mask_of_ruleRegisterLiteral (m := keyBz) rfl h⟩

/-- Settles O22: the base of `bp` is that of `bz` plus 0x2000. -/
theorem bpFollowsItsRule : Obligations.BpFollowsItsRule := by
  refine ⟨rfl, fun ops s => exec_of_iTwo (i := .bp ops) rfl s, fun ops w bin hex => ⟨fun h => ?_, fun h => ?_⟩⟩
  · exact and_mask_of_ruleRegisterLiteral (m := keyBp) rfl h
  · rw [encodeTokens_of_iTwo rfl] at h ⊢
    exact ruleRegisterLiteral_add_base h 0x2000

/-- Settles O23. -/
theorem putFollowsItsRule : Obligations.PutFollowsItsRule :=
  ⟨rfl, fun ops s => exec_of_iOne (i := .put ops) rfl s,
    fun _ _ _ _ h => and_mask_of_ruleOneRegister (m := keyPut) rfl h⟩

end Sys2Proof.Machine
end

section
/-! SUPPORT. Proofs of the family 60_exceptions: which error is reported, its codes on the ports, and what taking an
error leaves (R145 to R150). -/

namespace Sys2Proof.Machine

/-! ## Operand lists of the wrong length -/

theorem ruleTwoRegisters_of_length_ne (base : Nat) {ops : List Token} (h : ops.length ≠ 2) :
    ruleTwoRegisters base ops = .err countError := by
  match ops with
  | [] | [_] | _ :: _ :: _ :: _ => rfl
  | [_, _] => exact absurd rfl h

theorem ruleNoOperand_of_length_ne (base : Nat) {ops : List Token} (h : ops.length ≠ 0) :
    ruleNoOperand base ops = .err countError := by
  cases ops with
  | nil => exact absurd rfl h
  | cons a rest => rfl

theorem ruleRegisterLiteral_of_length_ne (base : Nat) {ops : List Token} (h : ops.length ≠ 2) :
    ruleRegisterLiteral base ops = .err countError := by
  match ops with
  | [] | [_] | _ :: _ :: _ :: _ => rfl
  | [_, _] => exact absurd rfl h

theorem ruleOneRegister_of_length_ne (base : Nat) {ops : List Token} (h : ops.length ≠ 1) :
    ruleOneRegister base ops = .err countError := by
  match ops with
  | [] | _ :: _ :: _ => rfl
  | [_] => exact absurd rfl h

/-! ## The priorities of R147, one lemma per row of its table -/

/-- The count is checked before any operand is read. -/
theorem encodeTokens_of_length_ne {m : Token} {e : InstructionSpec} (hentry : isetLookup m = some e)
    {ops : List Token} (hlen : ops.length ≠ e.operandCount) : encodeTokens m ops = .err countError := by
  obtain ⟨op, form⟩ := e
  cases form with
  | rTwo subop => rw [encodeTokens_of_rTwo hentry, ruleTwoRegisters_of_length_ne _ hlen]
  | rNone subop => rw [encodeTokens_of_rNone hentry, ruleNoOperand_of_length_ne _ hlen]
  | iTwo => rw [encodeTokens_of_iTwo hentry, ruleRegisterLiteral_of_length_ne _ hlen]
  | iOne => rw [encodeTokens_of_iOne hentry, ruleOneRegister_of_length_ne _ hlen]

/-- Operand 1 is a register in every entry that has operands, and is read before operand 2. -/
theorem encodeTokens_of_no_register1 {m : Token} {e : InstructionSpec} (hentry : isetLookup m = some e)
    {a : Token} {rest : List Token} (hlen : (a :: rest).length = e.operandCount) (ha : registerIndex a = none) :
    encodeTokens m (a :: rest) = .err ⟨.unknownRegister, .operand1, a⟩ := by
  obtain ⟨op, form⟩ := e
  cases form with
  | rTwo subop =>
    obtain ⟨b, rfl⟩ := List.length_eq_one_iff.1 (Nat.succ.inj hlen)
    simp only [encodeTokens_of_rTwo hentry, ruleTwoRegisters, ha]
  | rNone subop => cases hlen
  | iTwo =>
    obtain ⟨b, rfl⟩ := List.length_eq_one_iff.1 (Nat.succ.inj hlen)
    simp only [encodeTokens_of_iTwo hentry, ruleRegisterLiteral, ha]
  | iOne =>
    obtain rfl := List.length_eq_zero_iff.1 (Nat.succ.inj hlen)
    simp only [encodeTokens_of_iOne hentry, ruleOneRegister, ha]

/-- Operand 2 of an R-type entry is a register (R142). -/
theorem encodeTokens_of_no_register2 {m : Token} {e : InstructionSpec} (hentry : isetLookup m = some e)
    (hformat : e.format = .rType) {a b : Token} (hlen : [a, b].length = e.operandCount)
    (ha : registerIndex a ≠ none) (hb : registerIndex b = none) :
    encodeTokens m [a, b] = .err ⟨.unknownRegister, .operand2, b⟩ := by
  obtain ⟨op, form⟩ := e
  cases form with
  | rTwo subop =>
    obtain ⟨rs, hrs⟩ := Option.ne_none_iff_exists'.1 ha
    simp only [encodeTokens_of_rTwo hentry, ruleTwoRegisters, hrs, hb]
  | rNone subop => cases hlen
  | iTwo | iOne => cases hformat

/-- Operand 2 of an I-type entry is a literal, and one out of range counts as none (R143). -/
theorem encodeTokens_of_no_immediate {m : Token} {e : InstructionSpec} (hentry : isetLookup m = some e)
    (hformat : e.format = .iType) {a b : Token} (hlen : [a, b].length = e.operandCount)
    (ha : registerIndex a ≠ none) (hb : immediateOf b = none) :
    encodeTokens m [a, b] = .err ⟨.malformedImmediate, .operand2, b⟩ := by
  obtain ⟨op, form⟩ := e
  cases form with
  | iTwo =>
    obtain ⟨rs, hrs⟩ := Option.ne_none_iff_exists'.1 (mt registerIndex_of_absent ha)
    rw [encodeTokens_of_iTwo hentry, ruleRegisterLiteral_of_no_immediate _ hrs hb]
  | iOne => cases hlen
  | rTwo subop | rNone subop => cases hformat

/-! ## The codes of R145 -/

/-- The codes of a pair of kind and field, as `err_code` and `err_field` show them. -/
def pairCodes (p : ErrorKind × ErrorField) : BitVec 3 × BitVec 2 := (p.1.code, p.2.code)

theorem map_pairCodes_errorPairs :
    errorPairs.map pairCodes = [(1#3, 0#2), (2#3, 1#2), (2#3, 2#2), (3#3, 2#2), (4#3, 3#2)] := rfl

theorem pair_mem_of_legal {e : EncodeError} (h : e.legal = true) : (e.kind, e.field) ∈ errorPairs := by
  rw [EncodeError.legal, Bool.and_eq_true] at h
  obtain ⟨hpair, -⟩ := h
  exact List.contains_iff_mem.1 hpair

/-- Each pair of R145 is the error of a line: the empty line, a bad operand 1, a bad operand 2 as a register and as a
literal, and a missing operand. -/
theorem exists_line_of_errorPair :
    ∀ p ∈ errorPairs, ∃ line e, encodeLine line = .err e ∧ (e.kind, e.field) = p := by
  simp only [errorPairs, List.forall_mem_cons]
  refine ⟨⟨[], unknownMnemonic [], rfl, rfl⟩,
    ⟨text "put x", ⟨.unknownRegister, .operand1, text "x"⟩, by decide, rfl⟩,
    ⟨text "add $r0 x", ⟨.unknownRegister, .operand2, text "x"⟩, by decide, rfl⟩,
    ⟨text "addi $r0 256", ⟨.malformedImmediate, .operand2, text "256"⟩, by decide, rfl⟩,
    ⟨text "put", countError, by decide, rfl⟩, List.forall_mem_nil _⟩

/-- What the ports show when a response is delivered: the codes of a pair of R145 with an error, and code 0 with a
word. -/
theorem samples_deliver_of_legal (s : State) {r : Result} (h : r.legal = true) :
    (sampleOk (s.deliver r) = .ok 1#1 ∧ sampleErrCode (s.deliver r) = .ok 0#3) ∨
    (sampleOk (s.deliver r) = .ok 0#1 ∧ ∃ p ∈ errorPairs,
      sampleErrCode (s.deliver r) = .ok (pairCodes p).1 ∧ sampleErrField (s.deliver r) = .ok (pairCodes p).2) := by
  cases r with
  | ok w bin hex =>
    obtain ⟨hok, -, -, hcode, -⟩ := samples_of_ok (deliver_response s (.ok w bin hex))
    exact .inl ⟨hok, hcode⟩
  | err e =>
    obtain ⟨hok, -, -, hcode, hfield⟩ := samples_of_err (deliver_response s (.err e))
    exact .inr ⟨hok, (e.kind, e.field), pair_mem_of_legal h, hcode, hfield⟩

/-! ## The obligations -/

/-- Settles O34: a lemma for each row of the priority table. -/
theorem firstErrorInTheFixedOrder : Obligations.FirstErrorInTheFixedOrder := by
  refine fun m ops => ⟨fun habsent => encodeTokens_of_absent habsent ops, fun e hentry => ⟨?_, ?_, ?_⟩⟩
  · exact encodeTokens_of_length_ne hentry
  · rintro a rest hlen rfl ha
    exact encodeTokens_of_no_register1 hentry hlen ha
  · rintro a b hlen rfl ha
    exact ⟨fun hformat hb => encodeTokens_of_no_register2 hentry hformat hlen ha hb,
      fun hformat hb => encodeTokens_of_no_immediate hentry hformat hlen ha ((immediateOf_eq_none b).2 hb)⟩

/-- Settles O35: every result of the whole operation is legal, so its error has a pair of R145; the other way round,
each pair has a line. -/
theorem errorCodesOnThePorts : Obligations.ErrorCodesOnThePorts := by
  unfold Obligations.ErrorCodesOnThePorts
  rw [← map_pairCodes_errorPairs]
  refine ⟨fun s t line rest hreq hstep => ?_, fun codes hcodes => ?_, rfl, rfl, rfl, rfl, rfl, rfl, rfl, rfl⟩
  · rw [step_of_request hreq] at hstep
    cases hstep
    refine (samples_deliver_of_legal s (encodeLine_legal line)).imp_right fun ⟨hok, p, hp, hcode, hfield⟩ => ?_
    exact ⟨hok, _, _, hcode, hfield, List.mem_map_of_mem hp⟩
  · obtain ⟨p, hp, rfl⟩ := List.mem_map.1 hcodes
    obtain ⟨line, e, hline, rfl⟩ := exists_line_of_errorPair p hp
    have hstep := step_of_request (s := State.reset.placeRequest line) rfl
    rw [hline] at hstep
    obtain ⟨-, -, -, hcode, hfield⟩ := samples_of_err (deliver_response (State.reset.placeRequest line) (.err e))
    exact ⟨line, _, hstep, hcode, hfield⟩

/-- Settles O36: the step delivers the `Err`, and a delivery changes the queue and the response only. -/
theorem errorGivesNoSubstituteWord : Obligations.ErrorGivesNoSubstituteWord := by
  intro s line rest e hreq herr
  have hstep := step_of_request hreq
  rw [herr] at hstep
  obtain ⟨-, hword, hhex, -⟩ := samples_of_err (deliver_response s (.err e))
  exact ⟨_, hstep, deliver_of_requests hreq _, hword, hhex⟩

end Sys2Proof.Machine
end

section
/-! SUPPORT. The reset input: what is left of the requests and the response, and what the next request gets (R170,
R171). -/

namespace Sys2Proof.Machine

/-- The frame of the reset input: the host wrapper's state stays (log 12). -/
theorem blockReset_frame (s : State) :
    s.blockReset.requests = [] ∧ s.blockReset.input = s.input ∧ s.blockReset.lineIndex = s.lineIndex ∧
      s.blockReset.out = s.out ∧ s.blockReset.phase = s.phase :=
  ⟨blockReset_requests s, blockReset_input s, blockReset_lineIndex s, blockReset_out s, blockReset_phase s⟩

/-- A line handed over after a reset is the only pending request: none of those in flight comes before it. -/
theorem blockReset_placeRequest_requests (s : State) (line : Line) :
    (s.blockReset.placeRequest line).requests = [line] := by
  rw [placeRequest_requests, blockReset_requests, List.nil_append]

/-- Settles O60: after a reset nothing is pending, so a step without a new request only moves the host wrapper, and a
step with one answers that one. -/
theorem resetInputDropsRequestsAndResponse : Obligations.ResetInputDropsRequestsAndResponse := by
  intro s line
  refine ⟨blockReset_frame s, samples_of_no_response (blockReset_response s), ?_, ?_⟩
  · exact ⟨_, step_of_no_request (blockReset_requests s), driverStep_response _⟩
  · exact ⟨_, step_of_request (blockReset_placeRequest_requests s line), deliver_response _ _⟩

end Sys2Proof.Machine
end
